-- ==== Sys2Proof/Word.lean ====
section
/-! DEFINITION. The word types of the block (spec 00 R7): every host register, hash value and seed is 32 bits,
unsigned; a key byte and a byte of the bit array are 8 bits, unsigned. -/

namespace Sys2Proof

/-- A 32-bit unsigned value (00 R7): registers, hashes, seeds, offsets, command words. -/
abbrev Word := BitVec 32

/-- An 8-bit unsigned value (00 R7): a key byte, a byte of the bit array. -/
abbrev Byte := BitVec 8

end Sys2Proof
end

