-- ==== Sys2Proof/Config.lean ====
section
/-! DEFINITION. What an implementation fixes (spec 00 R6) and the free values (93 I4 to I7):
constants with no body, so that nothing can be proved of the value they have. The block's named constants (00 R8) stand
in Machine/Constants.lean. -/

namespace Sys2Proof

/-- The implementation parameters the machine itself reads (00 R6). The spec takes them as arguments of the model;
State holds one `Params`, no step changes it, and a statement over every state holds for every choice of them. -/
structure Params where
  /-- MAX_BITS, the capacity of the bit array in bits; CAP_MAX_BITS reads it (10 R36). -/
  maxBits : Word
  /-- KEY_MAX_LEN, the capacity of the key buffer in bytes; CAP_KEY_MAX reads it (10 R37). -/
  keyMaxLen : Word
deriving DecidableEq, Repr

namespace Config

/-- The parameters of `State.reset`. DESIGN CHOICE (log 3): the spec leaves both OPEN; these are the values of the
informative model in 95's appendix (MAX_BITS = 2^20, KEY_MAX_LEN = 256). Unsafe to rest a claim on. -/
def defaultParams : Params := { maxBits := 0x00100000#32, keyMaxLen := 0x00000100#32 }

/-- What the host reads from key byte `j` when nothing has written it since reset number `epoch` (10 R38, R43: the
byte is unspecified). A free value, the same at every read of one epoch, since reads change nothing (20 R57). -/
opaque unwrittenKeyByte (epoch j : Nat) : Byte

/-- What byte `j` of BITS holds when no CONFIG has zeroed it since reset number `epoch` (93 I4, I6, I7: any value).
A free value. -/
opaque unwrittenBitsByte (epoch j : Nat) : Byte

end Config

end Sys2Proof
end

