-- ==== Sys2Proof/Syntax.lean ====
section
/-! DEFINITION. The instructions of the block: its four commands, one constructor per row of the opcode table
(spec 30 R66). A command word has no operand field (30 R71), so no constructor has an argument: the operands stand in
registers and in the key buffer (30 R68 to R70). -/

namespace Sys2Proof

/-- A command of the block (30 R66). -/
inductive Instr where
  /-- HASH, `0x00000001` (41 R88). -/
  | hash
  /-- CONFIG, `0x00000002` (42 R100). -/
  | config
  /-- CHECK, `0x00000003` (44 R136). -/
  | check
  /-- ADD, `0x00000004` (44 R138). -/
  | add
deriving DecidableEq, Repr

end Sys2Proof
end

