-- ==== Sys2Proof/WellFormed.lean ====
section
/-! DEFINITION. The checks on what is given to the machine from outside: the parameters (spec 00 R6) and a command
word (30 R67). A command has no operand (30 R71), so every term of `Instr` is well formed. -/

namespace Sys2Proof

/-- The legal values of the parameters (00 R6): MAX_BITS in 1 .. 2^32-1, KEY_MAX_LEN in 0 .. 2^32-4096. -/
abbrev Params.wf (p : Params) : Prop := 1 ≤ p.maxBits.toNat ∧ p.keyMaxLen.toNat ≤ 2 ^ 32 - 4096

/-- A legal command word (30 R67): `c[31:4]` is 0 and `c[3:0]` is 1, 2, 3 or 4. -/
abbrev commandLegal (c : Word) : Prop := c.toNat / 16 = 0 ∧ 1 ≤ c.toNat % 16 ∧ c.toNat % 16 ≤ 4

/-- Every command is well formed: it has no field that could be out of range (30 R71). -/
abbrev Instr.wf (i : Instr) : Prop :=
  match i with
  | .hash => True
  | .config => True
  | .check => True
  | .add => True

end Sys2Proof
end

