-- ==== Sys2Proof/Decode.lean ====
section
/-! DEFINITION. Command decoding, total over all 32-bit words (spec 30 R67), the encoder (30 R66), and the
disassembler (30 R78). -/

namespace Sys2Proof

/-- Why a word is no command (30 R72). Either way the machine answers ILLEGAL_CMD (60 R165). -/
inductive DecodeError where
  /-- RSV, bits [31:4], is not zero. -/
  | reservedBitsSet
  /-- OP is 0 or 5 to 15. -/
  | reservedOp
deriving DecidableEq, Repr

/-- OP, bits [3:0] of a command word (30 R65). -/
def commandOp (c : Word) : BitVec 4 := c.extractLsb' 0 4

/-- RSV, bits [31:4] of a command word (30 R65). -/
def commandRsv (c : Word) : BitVec 28 := c.extractLsb' 4 28

/-- decode (30 R67), by the two fields of 30 R65. -/
def decode (c : Word) : Except DecodeError Instr :=
  if commandRsv c ≠ 0#28 then .error .reservedBitsSet
  else match (commandOp c).toNat with
    | 1 => .ok .hash
    | 2 => .ok .config
    | 3 => .ok .check
    | 4 => .ok .add
    | _ => .error .reservedOp

/-- The command word of a command (30 R66). -/
def encode (i : Instr) : Word :=
  match i with
  | .hash => 0x00000001#32
  | .config => 0x00000002#32
  | .check => 0x00000003#32
  | .add => 0x00000004#32

/-- One hexadecimal digit, upper case (log 20). -/
def hexDigit (n : Nat) : Char := if n < 10 then Char.ofNat (48 + n) else Char.ofNat (55 + n)

/-- The eight hexadecimal digits of a word, most significant first. -/
def hexWord (c : Word) : List Char :=
  [28, 24, 20, 16, 12, 8, 4, 0].map fun k => hexDigit (c.extractLsb' k 4).toNat

/-- Disassembly (30 R78): the mnemonic of a legal word, `illegal 0xXXXXXXXX` for every other. -/
def disassemble (c : Word) : String :=
  match decode c with
  | .ok .hash => "hash"
  | .ok .config => "config"
  | .ok .check => "check"
  | .ok .add => "add"
  | .error _ => "illegal 0x" ++ String.ofList (hexWord c)

/-- The command word whose bits are `w`, of a row of `nbits` bits: bits above `nbits` are 0 (30 R65: 32 bits, bit 0 of
the data is bit 0 of the word, 20 R47). -/
def tableWord (nbits w : Nat) : Word := BitVec.ofNat 32 (w % 2 ^ nbits)

/-- The instruction the decoder reads from the bits `w` as the opcode table numbers them. A word is 32 bits long, so
bits beyond them are no command. -/
def decodeTableWord (nbits w : Nat) : Option Instr :=
  if w % 2 ^ nbits < 2 ^ 32 then (decode (tableWord nbits w)).toOption else none

end Sys2Proof
end

