-- ==== Sys2Proof/Machine/Constants.lean ====
section
/-! DEFINITION. The named constants of the block, as the spec prints them (00 R8). All are UNVERIFIED literals
(93 I1, log 18): a model against another implementation re-checks them here. -/

namespace Sys2Proof.Machine

/-- `M`, the hash multiplier (00 R8). -/
def hashM : Word := 0x5bd1e995#32

/-- `R`, the block-mixing right shift (00 R8). -/
def hashR : Nat := 24

/-- `F1`, the first finalisation shift (00 R8). -/
def hashF1 : Nat := 13

/-- `F2`, the second finalisation shift (00 R8). -/
def hashF2 : Nat := 15

/-- `SEED_A`, the seed of the first probe hash (00 R8). -/
def seedA : Word := 0x9747b28c#32

/-- The numerator of the decimal literal `LN2SQ` = 0.480453013918201 (00 R8), over `literalDen`. -/
def ln2SqNum : Nat := 480453013918201

/-- The numerator of the decimal literal `LN2` = 0.693147180559945 (00 R8), over `literalDen`. -/
def ln2Num : Nat := 693147180559945

/-- The denominator of both decimal literals, 10^15. -/
def literalDen : Nat := 1000000000000000

end Sys2Proof.Machine
end

