-- ==== Sys2Proof/Machine/State.lean ====
section
/-! DEFINITION. The machine's state as plain data: every register, flag, memory and hidden register the spec gives the
block (spec 10), the command in progress, and the host side of the port (20 R45, 30 R74). INVENTORY.md lists each with
its rule and its reset value. -/

namespace Sys2Proof.Machine

/-- The error codes of STATUS.ERR (60 R161). Codes 5 to 15 are never produced (93 I8), so they are no value here. -/
inductive ErrCode where
  /-- 0, the command completed normally. -/
  | ok
  /-- 1, raised by CONFIG (60 R162). -/
  | invalidParams
  /-- 2, raised by CHECK and ADD while READY = 0 (60 R163). -/
  | notReady
  /-- 3, raised by a word that decodes as ILLEGAL (60 R165). -/
  | illegalCmd
  /-- 4, raised by HASH, CHECK and ADD when KEY_LEN > KEY_MAX_LEN (60 R166). -/
  | keyTooLong
deriving DecidableEq, Repr

/-- Why the machine stops with a fault. -/
inductive Fault where
  /-- Raised by HASH, CHECK and ADD when the key they read has byte `j`, which nothing has written since reset
  (70 R184, 93 I5; log 5). Safe: the model gives the byte no value. -/
  | keyByteUnwritten (j : Nat)
  /-- Raised by CHECK and ADD when READY = 1 and BIT_COUNT = 0, which 43 R127 says cannot happen (log 10). Safe: no
  state that meets the invariant of 10 R44 raises it. -/
  | probeModulusZero
deriving DecidableEq, Repr

/-- Why the machine gives an instruction no meaning. -/
inductive Refusal where
  /-- The instruction with this mnemonic has no meaning yet; raised by its arm of `exec` alone. Safe. Every command of
  the block has its meaning, so no arm raises it. -/
  | notModelled (mnemonic : String)
deriving DecidableEq, Repr

/-- The width of a host transaction, in bits (20 R45). -/
inductive Width where
  | w8
  | w16
  | w32
deriving DecidableEq, Repr

/-- A statement of a host script (30 R74). -/
inductive Stmt where
  /-- `Write(off, w, data)` (20 R45). -/
  | wr (w : Width) (off data : Word)
  /-- `Read(off, w)` (20 R45). -/
  | rd (w : Width) (off : Word)
  /-- Read STATUS again and again until it shows BUSY = 0. -/
  | poll
deriving DecidableEq, Repr

/-- What one host read returned (20 R45). -/
structure Response where
  off : Word
  width : Width
  data : Word
deriving DecidableEq, Repr

/-- Who moves next (log 1). -/
inductive Turn where
  /-- The host issues its next statement. -/
  | host
  /-- The Engine completes the command in progress, if there is one (70 R187, R190). -/
  | engine
  /-- Reset is asserted and released (70 R180). -/
  | reset
deriving DecidableEq, Repr

/-- The host side of the port: the model's own fields (log 1, log 12). -/
structure Env where
  /-- The statements the host has not issued yet, in order. -/
  script : List Stmt
  /-- Who moves next, in order; where it is empty a default decides (log 2). -/
  schedule : List Turn
  /-- What the host's reads returned, newest first. -/
  responses : List Response
deriving DecidableEq, Repr

/-- The Engine's hidden registers (10 R40): HSH's h, k, pos; PRB's a, b, i; BAR's hits, idx. -/
structure Scratch where
  h : Word
  k : Word
  pos : Nat
  a : Word
  b : Word
  i : Nat
  hits : Nat
  idx : Nat
deriving DecidableEq, Repr

/-- A memory as (address, byte) pairs at strictly rising addresses. -/
abbrev Memory := List Host.Cell

/-- The state of the block and of its host port. -/
structure State where
  /-- MAX_BITS and KEY_MAX_LEN (00 R6), read through CAP_MAX_BITS and CAP_KEY_MAX; no step changes them. -/
  params : Params
  /-- The word of the command in progress; STATUS.BUSY is 1 exactly while there is one (10 R23, 70 R185). -/
  inFlight : Option Word
  /-- STATUS.READY (10 R24). -/
  ready : Bool
  /-- STATUS.HIT (10 R25). -/
  hit : Bool
  /-- STATUS.FAULT (10 R26). -/
  fault : Bool
  /-- STATUS.OVERRUN (10 R27). -/
  overrun : Bool
  /-- STATUS.ERR (10 R28). -/
  err : ErrCode
  /-- ARG0 (10 R30). -/
  arg0 : Word
  /-- ARG1 (10 R31). -/
  arg1 : Word
  /-- KEY_LEN (10 R32). -/
  keyLen : Word
  /-- RESULT (10 R33). -/
  result : Word
  /-- BIT_COUNT (10 R34). -/
  bitCount : Word
  /-- HASH_COUNT (10 R35). -/
  hashCount : Word
  /-- The key buffer KEY (10 R38): the bytes written since reset. -/
  key : Memory
  /-- The bit array BITS (10 R39): the bytes zeroed or set since reset. -/
  bits : Memory
  /-- The hidden registers (10 R40). -/
  scratch : Scratch
  /-- The model's own counter of resets, which the free values are applied to (log 8). -/
  epoch : Nat
  /-- The host side of the port (log 1). -/
  env : Env
deriving DecidableEq, Repr

/-- The hidden registers at reset. The spec leaves them unspecified (10 R43); DESIGN CHOICE 0 (log 9). -/
def Scratch.reset : Scratch :=
  { h := 0#32, k := 0#32, pos := 0, a := 0#32, b := 0#32, i := 0, hits := 0, idx := 0 }

/-- No statement to issue, no turn fixed, nothing read (log 1). -/
def Env.empty : Env := { script := [], schedule := [], responses := [] }

/-- A block with parameters `p` right after its first reset (10 R43). -/
def State.resetWith (p : Params) : State :=
  { params := p, inFlight := none
    ready := false, hit := false, fault := false, overrun := false, err := .ok
    arg0 := 0#32, arg1 := 0#32, keyLen := 0#32, result := 0#32, bitCount := 0#32, hashCount := 0#32
    key := [], bits := [], scratch := Scratch.reset, epoch := 0, env := Env.empty }

/-- The machine right after reset (10 R43), with the parameters of log 3. -/
def State.reset : State := State.resetWith Config.defaultParams

end Sys2Proof.Machine
end

