-- ==== Sys2Proof/Machine/Flags.lean ====
section
/-! DEFINITION. STATUS: the error codes and the word the host reads (spec 10 R22, 60 R161). The block has no other
flags (10 R42). -/

namespace Sys2Proof.Machine

/-- The code an error has in STATUS.ERR (60 R161). -/
def ErrCode.code (e : ErrCode) : BitVec 4 :=
  match e with
  | .ok => 0#4
  | .invalidParams => 1#4
  | .notReady => 2#4
  | .illegalCmd => 3#4
  | .keyTooLong => 4#4

/-- STATUS.BUSY: 1 from the write to CMD until the command completes (10 R23). -/
def State.busy (s : State) : Bool := s.inFlight.isSome

/-- STATUS as the host reads it (10 R22), most significant field first; bits [31:12] and [7:5] are 0 (10 R29). -/
def State.statusWord (s : State) : Word :=
  0#20 ++ s.err.code ++ 0#3 ++ BitVec.ofBool s.overrun ++ BitVec.ofBool s.fault ++ BitVec.ofBool s.hit ++
    BitVec.ofBool s.ready ++ BitVec.ofBool s.busy

/-- `zext_32(r)` of a boolean result (44 R146). -/
def boolWord (r : Bool) : Word := (BitVec.ofBool r).setWidth 32

/-- The FAULT bit after an error: NOT_READY sets it, every other code leaves it (60 R163, R164). -/
def faultAfter (code : ErrCode) (fault : Bool) : Bool :=
  match code with
  | .notReady => true
  | _ => fault

end Sys2Proof.Machine
end

