-- ==== Sys2Proof/Machine/Ops.lean ====
section
/-! DEFINITION. The shared operations: memory as a canonical list, the bit-array primitives (spec 20 R53, R54), the key
buffer's bytes (20 R48), how a command ends (60 R164, 70 R187), and reset (70 R180). The block has no trap: an error is
how a command ends, and control returns nowhere (60 R160, R170, R171), so `raiseError` is the one exception entry. -/

namespace Sys2Proof.Machine

/-- What an unlisted address reads as: no value (10 R43: KEY and BITS are unspecified after reset). -/
def unlistedByte : Option Byte := none

/-- The byte written at an address. -/
def Memory.read (m : Memory) (a : Nat) : Option Byte :=
  match m with
  | [] => unlistedByte
  | c :: rest => if c.1 = a then some c.2 else Memory.read rest a

/-- A write, which keeps the addresses strictly rising. -/
def Memory.write (m : Memory) (a : Nat) (v : Byte) : Memory :=
  match m with
  | [] => [(a, v)]
  | c :: rest =>
    if a < c.1 then (a, v) :: c :: rest
    else if c.1 = a then (a, v) :: rest
    else c :: Memory.write rest a v

/-- The canonical form: addresses strictly rising. An unlisted address has no value, so no entry equals what an unlisted
address reads as. -/
abbrev Memory.wf (m : Memory) : Prop := m.Pairwise fun c d => c.1 < d.1

/-- Every listed address is below `n`. -/
abbrev Memory.below (m : Memory) (n : Nat) : Prop := ∀ c ∈ m, c.1 < n

/-- Bytes `a .. a+n-1`, or the first of them that nothing has written. -/
def Memory.readBytes (m : Memory) (a n : Nat) : Except Nat (List Byte) :=
  match n with
  | 0 => .ok []
  | n + 1 =>
    match m.read a with
    | none => .error a
    | some v =>
      match Memory.readBytes m (a + 1) n with
      | .error j => .error j
      | .ok vs => .ok (v :: vs)

/-- Bytes `0 .. n-1` become 0, every other byte stays as it was (42 R102). -/
def Memory.zeroFill (m : Memory) (n : Nat) : Memory :=
  (List.range n).map (fun j => (j, 0#8)) ++ m.filter fun c => n ≤ c.1

/-- Byte `j` of BITS: a free value until a CONFIG zeroes it (93 I4, I6; log 7). -/
def bitsByte (epoch : Nat) (m : Memory) (j : Nat) : Byte :=
  (m.read j).getD (Config.unwrittenBitsByte epoch j)

/-- `BitRead(idx)` (20 R53). -/
def bitRead (epoch : Nat) (m : Memory) (idx : Nat) : Bool :=
  (bitsByte epoch m (idx >>> 3) >>> (idx % 8)) &&& 1#8 == 1#8

/-- `BitSet(idx)` (20 R54). -/
def bitSet (epoch : Nat) (m : Memory) (idx : Nat) : Memory :=
  m.write (idx >>> 3) (bitsByte epoch m (idx >>> 3) ||| (1#8 <<< (idx % 8)))

/-- The number of bytes a filter of `bc` bits uses, computed as 42 R105 says a 32-bit datapath may. -/
def byteCount (bc : Word) : Nat := ((bc >>> 3) + if bc &&& 7#32 ≠ 0#32 then 1#32 else 0#32).toNat

/-- The number of bytes of the bit array, ceil(MAX_BITS / 8) (10 R39). -/
def bitsCapacity (p : Params) : Nat := byteCount p.maxBits

/-- What the host reads from `KEY[j]`: a free value until it is written (10 R38; log 6). -/
def hostKeyByte (s : State) (j : Nat) : Byte :=
  (s.key.read j).getD (Config.unwrittenKeyByte s.epoch j)

/-- Byte lane `q` of a host word (20 R48, R50). -/
def byteLane (data : Word) (q : Nat) : Byte := data.extractLsb' (8 * q) 8

/-- `KEY[j+q] <- lane q` for `q` in `0 .. n-1` (20 R48). -/
def writeLanes (m : Memory) (j : Nat) (data : Word) (n : Nat) : Memory :=
  match n with
  | 0 => m
  | n + 1 => (writeLanes m j data n).write (j + n) (byteLane data n)

/-- The little-endian value of bytes `j .. j+n-1` of the key buffer (20 R48). -/
def readLanes (s : State) (j n : Nat) : Word :=
  match n with
  | 0 => 0#32
  | n + 1 => readLanes s j n ||| ((hostKeyByte s (j + n)).setWidth 32 <<< (8 * n))

/-- `complete()`: the command ends and BUSY falls, at the instant all its writes become visible (70 R187). -/
def complete (s : State) : State := { s with inFlight := none }

/-- `raise Error(code)` (60 R164): ERR, FAULT for NOT_READY, completion, nothing else. -/
def raiseError (code : ErrCode) (s : State) : State :=
  complete { s with err := code, fault := faultAfter code s.fault }

/-- Reset asserted and released (70 R180, R181): every register takes its value of 10 R43, KEY and BITS hold nothing,
a command in progress is gone. The parameters stay (10 R36, R37), and so does the host side, which is no part of the
block (log 15). -/
def resetBlock (s : State) : State :=
  { State.resetWith s.params with epoch := s.epoch + 1, env := s.env }

/-- The command word `c` in progress, the Engine next to move; for `State.withFetchWord` (log 4). -/
def placeCommand (s : State) (c : Word) : State :=
  { s with inFlight := some c, env := { s.env with schedule := .engine :: s.env.schedule } }

/-- HSH writes its registers (10 R40). -/
def Scratch.setHsh (r : Scratch) (h k : Word) (pos : Nat) : Scratch := { r with h := h, k := k, pos := pos }

/-- PRB writes its registers (10 R40). -/
def Scratch.setPrb (r : Scratch) (a b : Word) (i : Nat) : Scratch := { r with a := a, b := b, i := i }

/-- BAR writes its registers (10 R40). -/
def Scratch.setBar (r : Scratch) (hits idx : Nat) : Scratch := { r with hits := hits, idx := idx }

end Sys2Proof.Machine
end

