-- ==== Sys2Proof/Machine/Operands.lean ====
section
/-! DEFINITION. Where a command takes its operands from (spec 30 R68 to R70): two registers, and the key in the key
buffer. No operand is sign-extended, scaled or shifted (30 R71). -/

namespace Sys2Proof.Machine

/-- HASH's seed (30 R68). -/
abbrev State.seed (s : State) : Word := s.arg0

/-- CONFIG's requested bit_count (30 R69). -/
abbrev State.wantedBits (s : State) : Word := s.arg0

/-- CONFIG's requested hash_count (30 R69). -/
abbrev State.wantedHashes (s : State) : Word := s.arg1

/-- The key does not fit the key buffer (60 R166). -/
def State.keyOverlong (s : State) : Bool := s.params.keyMaxLen.toNat < s.keyLen.toNat

/-- The key operand, `KEY[0 .. KEY_LEN-1]` (30 R68, R70), or the first of its bytes that nothing has written. -/
def State.keyBytes (s : State) : Except Nat (List Byte) := s.key.readBytes 0 s.keyLen.toNat

/-- What HASH, CHECK and ADD do with their key: KEY_TOO_LONG where it does not fit (60 R166), a fault where a byte of it
was never written (70 R184; log 5, log 11), and else the command's own effect on the key. -/
def withKey (s : State) (effect : List Byte → Host.Outcome State Fault Refusal) : Host.Outcome State Fault Refusal :=
  if s.keyOverlong then .next (raiseError .keyTooLong s)
  else match s.keyBytes with
    | .error j => .fault (.keyByteUnwritten j)
    | .ok key => effect key

end Sys2Proof.Machine
end

