-- ==== Sys2Proof/Machine/Hash.lean ====
section
/-! DEFINITION. The hash unit HSH and the HASH command (spec 41): the function H stage by stage, the unit as a
pipeline over its hidden registers h, k and pos (41 R87), and the command. -/

namespace Sys2Proof.Machine

/-- `zext_32(key[j])`; every use has `j` below the key's length. -/
def keyByte (key : List Byte) (j : Nat) : Word := (key.getD j 0#8).setWidth 32

/-- Stage INIT (41 R81). -/
def hashInit (seed : Word) (n : Nat) : Word := seed ^^^ BitVec.ofNat 32 n

/-- The block word at byte offset `t`, little-endian (41 R82). -/
def packWord (key : List Byte) (t : Nat) : Word :=
  keyByte key t ||| (keyByte key (t + 1) <<< 8) ||| (keyByte key (t + 2) <<< 16) ||| (keyByte key (t + 3) <<< 24)

/-- The three steps on k of stage BLOCK (41 R83). -/
def scrambleWord (k : Word) : Word :=
  let k1 := k * hashM
  let k2 := k1 ^^^ (k1 >>> hashR)
  k2 * hashM

/-- The two steps on h of stage BLOCK (41 R83), `k` being scrambled. -/
def mixWord (h k : Word) : Word := (h * hashM) ^^^ k

/-- Stage TAIL with the fall-through reading of 90 C1 (41 R84): `t` is the offset of the first tail byte. -/
def hashTail (key : List Byte) (t rem : Nat) (h : Word) : Word :=
  let h3 := if 3 ≤ rem then h ^^^ (keyByte key (t + 2) <<< 16) else h
  let h2 := if 2 ≤ rem then h3 ^^^ (keyByte key (t + 1) <<< 8) else h3
  if 1 ≤ rem then (h2 ^^^ keyByte key t) * hashM else h2

/-- Stage FMIX (41 R85). -/
def hashFmix (h : Word) : Word :=
  let h1 := h ^^^ (h >>> hashF1)
  let h2 := h1 * hashM
  h2 ^^^ (h2 >>> hashF2)

/-- The first `nb` blocks mixed into `h`, in increasing order (41 R83). -/
def hashBlocks (key : List Byte) (h : Word) (nb : Nat) : Word :=
  match nb with
  | 0 => h
  | q + 1 => mixWord (hashBlocks key h q) (scrambleWord (packWord key (4 * q)))

/-- The function `H(key, seed)` (41 R86), as the composition of the stages. -/
def murmur (key : List Byte) (seed : Word) : Word :=
  let n := key.length
  hashFmix (hashTail key (4 * (n / 4)) (n % 4) (hashBlocks key (hashInit seed n) (n / 4)))

/-- HSH's stage INIT on its registers (41 R87). -/
def hshInit (seed : Word) (n : Nat) (r : Scratch) : Scratch :=
  r.setHsh (hashInit seed n) r.k 0

/-- HSH's step for one full block (41 R87): k is loaded at pos and scrambled, h is mixed, pos moves on. -/
def hshBlock (key : List Byte) (r : Scratch) : Scratch :=
  let k := scrambleWord (packWord key r.pos)
  r.setHsh (mixWord r.h k) k (r.pos + 4)

/-- HSH's stages TAIL and FMIX (41 R87). -/
def hshFinish (key : List Byte) (r : Scratch) : Scratch :=
  r.setHsh (hashFmix (hashTail key r.pos (key.length % 4) r.h)) r.k (r.pos + key.length % 4)

/-- HSH run on a key and a seed (41 R87): its output is in h. -/
def hshRun (key : List Byte) (seed : Word) (r : Scratch) : Scratch :=
  hshFinish key ((hshBlock key)^[key.length / 4] (hshInit seed key.length r))

/-- HASH's effect on its key (41 R88). -/
def hashEffect (s : State) (key : List Byte) : State :=
  let r := hshRun key s.seed s.scratch
  complete { s with result := r.h, err := .ok, scratch := r }

/-- HASH (41 R88). It reads no filter state (41 R90). -/
def execHash (s : State) : Host.Outcome State Fault Refusal :=
  withKey s fun key => .next (hashEffect s key)

end Sys2Proof.Machine
end

