-- ==== Sys2Proof/Machine/Probe.lean ====
section
/-! DEFINITION. The probe engine PRB (spec 43) over its hidden registers a, b and i, the bit-array unit's TEST and
TESTSET over hits and idx (44 R135), and the other forms the spec allows: the incremental index (43 R128), the 64-bit
datapath (43 R124), a CHECK that stops early (44 R137), a parallel BAR (44 R142). -/

namespace Sys2Proof.Machine

/-- The first hash `a = H(key, SEED_A)` (43 R121). -/
def probeA (key : List Byte) : Word := murmur key seedA

/-- The second hash `b = H(key, a)` (43 R122). -/
def probeB (key : List Byte) : Word := murmur key (probeA key)

/-- `idx_i = (a + i*b) mod bc`, in exact natural-number arithmetic (43 R123). -/
def probeIndex (a b : Word) (bc i : Nat) : Nat := (a.toNat + i * b.toNat) % bc

/-- The probe indices of a key for a filter of `bc` bits and `n` hashes, in the order PRB delivers them (43 R125). -/
def probeIndices (key : List Byte) (bc n : Nat) : List Nat :=
  (List.range n).map (probeIndex (probeA key) (probeB key) bc)

/-- The incremental form of the indices (43 R128). -/
def probeIndexStep (s bc idx : Nat) : Nat := if bc ≤ idx + s then idx + s - bc else idx + s

/-- The index a 64-bit wrapping datapath computes (43 R124). -/
def probeIndex64 (a b : Word) (bc : Word) (i : BitVec 64) : BitVec 64 :=
  (a.setWidth 64 + i * b.setWidth 64) % bc.setWidth 64

/-- The index a 32-bit wrapping datapath computes: wrong in general (43 R124), right for a power of two (43 R129(d)). -/
def probeIndex32 (a b : Word) (bc i : Nat) : Nat := ((a.toNat + i * b.toNat) % 2 ^ 32) % bc

/-- PRB's two hashes (43 R121, R122) through HSH, the probe counter and the hit counter at 0. -/
def prbStart (key : List Byte) (r : Scratch) : Scratch :=
  let r1 := hshRun key seedA r
  let r2 := hshRun key r1.h (r1.setPrb r1.h r1.b r1.i)
  (r2.setPrb r2.a r2.h 0).setBar 0 r2.idx

/-- PRB delivers the index of probe i, and counts on (43 R125). -/
def prbNext (bc : Nat) (r : Scratch) : Scratch :=
  (r.setPrb r.a r.b (r.i + 1)).setBar r.hits (probeIndex r.a r.b bc r.i)

/-- BAR counts a hit. -/
def countHit (r : Scratch) : Scratch := r.setBar (r.hits + 1) r.idx

/-- One probe of CHECK (44 R136): TEST the bit at idx, count a hit. -/
def checkProbe (epoch : Nat) (bits : Memory) (bc : Nat) (r : Scratch) : Scratch :=
  let r1 := prbNext bc r
  if bitRead epoch bits r1.idx then countHit r1 else r1

/-- `TESTSET(idx)` (44 R135): the bit as it was, and the array with it set. -/
def testSet (epoch : Nat) (bits : Memory) (idx : Nat) : Bool × Memory :=
  if bitRead epoch bits idx then (true, bits) else (false, bitSet epoch bits idx)

/-- One probe of ADD (44 R138): TESTSET the bit at idx, count a hit where it was set. -/
def addProbe (epoch bc : Nat) (x : Memory × Scratch) : Memory × Scratch :=
  let r1 := prbNext bc x.2
  let old := testSet epoch x.1 r1.idx
  (old.2, if old.1 then countHit r1 else r1)

/-- CHECK's probes, all of them (44 R136): the registers at the end. -/
def checkProbes (epoch : Nat) (bits : Memory) (bc n : Nat) (key : List Byte) (r : Scratch) : Scratch :=
  (checkProbe epoch bits bc)^[n] (prbStart key r)

/-- ADD's probes, every one of them, with no early exit (44 R139): the array and the registers at the end. -/
def addProbes (epoch : Nat) (bits : Memory) (bc n : Nat) (key : List Byte) (r : Scratch) : Memory × Scratch :=
  (addProbe epoch bc)^[n] (bits, prbStart key r)

/-- A CHECK that stops at the first clear bit (44 R137). -/
def checkShortCircuit (epoch : Nat) (bits : Memory) (indices : List Nat) : Bool :=
  match indices with
  | [] => true
  | idx :: rest => if bitRead epoch bits idx then checkShortCircuit epoch bits rest else false

/-- A BAR that sets all probed bits of an array at once (44 R142): each in turn, whatever it was. -/
def setAll (epoch : Nat) (bits : Memory) (indices : List Nat) : Memory :=
  match indices with
  | [] => bits
  | idx :: rest => setAll epoch (bitSet epoch bits idx) rest

/-- A parallel ADD (44 R142): it reads all bits of the old array, then sets them all. -/
def addParallel (epoch : Nat) (bits : Memory) (indices : List Nat) : Bool × Memory :=
  (indices.all (bitRead epoch bits), setAll epoch bits indices)

end Sys2Proof.Machine
end

