-- ==== Sys2Proof/Machine/CheckAdd.lean ====
section
/-! DEFINITION. The CHECK and ADD commands (spec 44). Both check READY first, then the key (60 R167). -/

namespace Sys2Proof.Machine

/-- The end of a CHECK or ADD without error (44 R146): HIT and RESULT take `r`, ERR is 0, the command completes. -/
def deliver (r : Bool) (s : State) : State := complete { s with hit := r, result := boolWord r, err := .ok }

/-- What CHECK and ADD share: NOT_READY while there is no filter (60 R163), the key (60 R166, 70 R184), and no probe with
a zero modulus (43 R127; log 10). -/
def withFilterAndKey (s : State) (effect : List Byte → State) : Host.Outcome State Fault Refusal :=
  if s.ready then
    withKey s fun key => if s.bitCount.toNat = 0 then .fault .probeModulusZero else .next (effect key)
  else .next (raiseError .notReady s)

/-- CHECK's effect on its key (44 R136). -/
def checkEffect (s : State) (key : List Byte) : State :=
  let n := s.hashCount.toNat
  let r := checkProbes s.epoch s.bits s.bitCount.toNat n key s.scratch
  deliver (r.hits == n) { s with scratch := r }

/-- CHECK (44 R136). -/
def execCheck (s : State) : Host.Outcome State Fault Refusal :=
  withFilterAndKey s (checkEffect s)

/-- ADD's effect on its key (44 R138). -/
def addEffect (s : State) (key : List Byte) : State :=
  let n := s.hashCount.toNat
  let x := addProbes s.epoch s.bits s.bitCount.toNat n key s.scratch
  deliver (x.2.hits == n) { s with bits := x.1, scratch := x.2 }

/-- ADD (44 R138). -/
def execAdd (s : State) : Host.Outcome State Fault Refusal :=
  withFilterAndKey s (addEffect s)

end Sys2Proof.Machine
end

