-- ==== Sys2Proof/Machine/Construct.lean ====
section
/-! DEFINITION. The CONFIG command (spec 42 R100 to R107). -/

namespace Sys2Proof.Machine

/-- CONFIG accepts its operands (42 R101): `1 <= bit_count <= MAX_BITS` and `1 <= hash_count`. -/
def configAccepts (s : State) : Bool :=
  1 ≤ s.wantedBits.toNat && s.wantedBits.toNat ≤ s.params.maxBits.toNat && 1 ≤ s.wantedHashes.toNat

/-- The effect of an accepted CONFIG (42 R100): the bytes in use are zeroed, and a new filter is ready. -/
def configEffect (s : State) : State :=
  complete
    { s with
      bits := s.bits.zeroFill (byteCount s.wantedBits)
      bitCount := s.wantedBits
      hashCount := s.wantedHashes
      ready := true
      err := .ok }

/-- CONFIG (42 R100). A rejected one changes only ERR and BUSY (42 R103). -/
def execConfig (s : State) : Host.Outcome State Fault Refusal :=
  if configAccepts s then .next (configEffect s) else .next (raiseError .invalidParams s)

end Sys2Proof.Machine
end

