-- ==== Sys2Proof/Machine/Dispatch.lean ====
section
/-! DEFINITION. One arm per command: a direct call of its meaning. -/

namespace Sys2Proof.Machine

def exec (i : Instr) (s : State) : Host.Outcome State Fault Refusal :=
  match i with
  | .hash => Sys2Proof.Machine.execHash s
  | .config => Sys2Proof.Machine.execConfig s
  | .check => Sys2Proof.Machine.execCheck s
  | .add => Sys2Proof.Machine.execAdd s

end Sys2Proof.Machine
end

