-- ==== Sys2Proof/Machine/Port.lean ====
section
/-! DEFINITION. The host port (spec 20 R45 to R49, 70 R185, R186): which location a transaction names, what a read
returns, what a write does, and the host's next statement (30 R74). -/

namespace Sys2Proof.Machine

/-- The host registers (10 R20). -/
inductive Reg where
  | cmd
  | status
  | arg0
  | arg1
  | keyLen
  | result
  | bitCount
  | hashCount
  | capMaxBits
  | capKeyMax
deriving DecidableEq, Repr

/-- A register's byte offset in the host window (10 R20). -/
def Reg.offset (r : Reg) : Word :=
  match r with
  | .cmd => 0x000#32
  | .status => 0x004#32
  | .arg0 => 0x008#32
  | .arg1 => 0x00C#32
  | .keyLen => 0x010#32
  | .result => 0x014#32
  | .bitCount => 0x018#32
  | .hashCount => 0x01C#32
  | .capMaxBits => 0x020#32
  | .capKeyMax => 0x024#32

/-- The register at a byte offset, where there is one (10 R20). -/
def Reg.atOffset (off : Nat) : Option Reg :=
  match off with
  | 0x000 => some .cmd
  | 0x004 => some .status
  | 0x008 => some .arg0
  | 0x00C => some .arg1
  | 0x010 => some .keyLen
  | 0x014 => some .result
  | 0x018 => some .bitCount
  | 0x01C => some .hashCount
  | 0x020 => some .capMaxBits
  | 0x024 => some .capKeyMax
  | _ => none

/-- What a transaction names (20 R46 to R49). -/
inductive Target where
  /-- A register, by a 32-bit transaction at its offset (20 R47). -/
  | reg (r : Reg)
  /-- Key bytes from `KEY[j]` on (20 R48). -/
  | key (j : Nat)
  /-- A transaction with no meaning (20 R49): unmapped, misaligned, of the wrong width, or past the key buffer. -/
  | nothing
deriving DecidableEq, Repr

/-- The bytes a transaction covers (20 R48). -/
def Width.bytes (w : Width) : Nat :=
  match w with
  | .w8 => 1
  | .w16 => 2
  | .w32 => 4

/-- The host offset of `KEY[0]` (20 R46). -/
def keyBase : Nat := 0x1000

/-- The key transaction at `off` is aligned to its width and lies wholly in the key buffer (20 R48). -/
def inKeyBuffer (p : Params) (w : Width) (off : Nat) : Bool :=
  keyBase ≤ off && off % w.bytes == 0 && off + w.bytes ≤ keyBase + p.keyMaxLen.toNat

/-- What a transaction of width `w` at byte offset `off` names (20 R46 to R49). -/
def targetOf (p : Params) (w : Width) (off : Nat) : Target :=
  match w, Reg.atOffset off with
  | .w32, some r => .reg r
  | _, _ => if inKeyBuffer p w off then .key (off - keyBase) else .nothing

/-- What the host reads from a register (10 R20): CMD reads 0 (R21), the two capacities read the parameters (R36,
R37). -/
def readReg (s : State) (r : Reg) : Word :=
  match r with
  | .cmd => 0#32
  | .status => s.statusWord
  | .arg0 => s.arg0
  | .arg1 => s.arg1
  | .keyLen => s.keyLen
  | .result => s.result
  | .bitCount => s.bitCount
  | .hashCount => s.hashCount
  | .capMaxBits => s.params.maxBits
  | .capKeyMax => s.params.keyMaxLen

/-- A host write to a register while idle: CMD starts a command with the word written, legal or not (70 R185), the
three RW registers take the value, a write to any other is dropped (10 R20). -/
def writeReg (s : State) (r : Reg) (data : Word) : State :=
  match r with
  | .cmd => { s with inFlight := some data }
  | .arg0 => { s with arg0 := data }
  | .arg1 => { s with arg1 := data }
  | .keyLen => { s with keyLen := data }
  | .status => s
  | .result => s
  | .bitCount => s
  | .hashCount => s
  | .capMaxBits => s
  | .capKeyMax => s

/-- `Read(off, w)` (20 R45): reads return the same whether or not a command is in progress, because nothing a command
writes is visible before it completes (70 R186, R187). A transaction with no meaning reads 0 (20 R49). -/
def hostRead (s : State) (w : Width) (off : Word) : Word :=
  match targetOf s.params w off.toNat with
  | .reg r => readReg s r
  | .key j => readLanes s j w.bytes
  | .nothing => 0#32

/-- `Write(off, w, data)` (20 R45). While BUSY = 1 any write is dropped and sets OVERRUN (70 R186); a transaction with
no meaning is dropped (20 R49). -/
def hostWrite (s : State) (w : Width) (off data : Word) : State :=
  if s.busy then { s with overrun := true }
  else match targetOf s.params w off.toNat with
    | .reg r => writeReg s r data
    | .key j => { s with key := writeLanes s.key j data w.bytes }
    | .nothing => s

/-- The host keeps what a read returned (log 12). -/
def record (s : State) (w : Width) (off data : Word) : State :=
  { s with env := { s.env with responses := ⟨off, w, data⟩ :: s.env.responses } }

/-- The host's script from `rest` on. -/
def withScript (s : State) (rest : List Stmt) : State := { s with env := { s.env with script := rest } }

/-- One statement of the host (30 R74), `rest` being what follows it. `poll` reads STATUS and stays the next statement
while BUSY = 1 (log 14). -/
def runStmt (s : State) (x : Stmt) (rest : List Stmt) : State :=
  match x with
  | .wr w off data => hostWrite (withScript s rest) w off data
  | .rd w off => record (withScript s rest) w off (hostRead s w off)
  | .poll =>
    record (if s.busy then s else withScript s rest) .w32 Reg.status.offset (hostRead s .w32 Reg.status.offset)

/-- The host's turn: its next statement, or nothing where the script is done (log 2). -/
def hostTurn (s : State) : State :=
  match s.env.script with
  | [] => s
  | x :: rest => runStmt s x rest

/-- Who moves next (log 1): the head of the schedule, and where that is empty the Engine while a command is in progress,
else the host (log 2). -/
def nextTurn (s : State) : Turn :=
  match s.env.schedule with
  | [] => if s.busy then .engine else .host
  | t :: _ => t

/-- The state with its next turn taken off the schedule. -/
def takeTurn (s : State) : State := { s with env := { s.env with schedule := s.env.schedule.tail } }

end Sys2Proof.Machine
end

