-- ==== Sys2Proof/Machine/Engine.lean ====
section
/-! DEFINITION. The Engine's turn (spec 70 R185 to R187): the command in progress is decoded, run and completed at one
instant. -/

namespace Sys2Proof.Machine

/-- The command word `c` run to completion (70 R185): a legal word runs its command, every other ends at once with
ILLEGAL_CMD (60 R165). -/
def runCommand (c : Word) (s : State) : Host.Outcome State Fault Refusal :=
  match decode c with
  | .ok i => exec i s
  | .error _ => .next (raiseError .illegalCmd s)

/-- The Engine's turn: the command in progress completes; an idle Engine does nothing (60 R179). -/
def engineTurn (s : State) : Host.Outcome State Fault Refusal :=
  match s.inFlight with
  | none => .next s
  | some c => runCommand c s

/-- One turn, whoever's it is. -/
def runTurn (t : Turn) (s : State) : Host.Outcome State Fault Refusal :=
  match t with
  | .host => .next (hostTurn s)
  | .engine => engineTurn s
  | .reset => .next (resetBlock s)

end Sys2Proof.Machine
end

