-- ==== Sys2Proof/Machine/Step.lean ====
section
/-! DEFINITION. One step of the machine: one turn of the host, of the Engine, or of the reset input (log 1). The block
fetches nothing and has no program counter (spec 10 R41): a command comes to the Engine as the word written to CMD
(log 4). -/

namespace Sys2Proof.Machine

/-- One step. -/
def step (s : State) : Host.Outcome State Fault Refusal := runTurn (nextTurn s) (takeTurn s)

/-- The state whose very next step runs the command word `w`: the word is in progress, as after its write to CMD, and
the Engine moves next (log 4). -/
def State.withFetchWord (s : State) (nbits w : Nat) : State := placeCommand s (tableWord nbits w)

end Sys2Proof.Machine
end

