-- ==== Sys2Proof/Machine/Binary64.lean ====
section
/-! DEFINITION. As much IEEE 754 binary64 arithmetic as the host's sizing function NEW uses (spec 42 R108), rounding to
nearest, ties to even. PRESUMED (log 17): the spec marks this as general knowledge (93 G1). A finite value is held
exactly, as a sign and a count of units of 2^-1074, of which every finite binary64 value is a whole multiple. -/

namespace Sys2Proof.Machine

/-- A binary64 value. -/
inductive F64 where
  | nan
  | inf (neg : Bool)
  /-- `units * 2^-1074`, negative where `neg`. -/
  | fin (neg : Bool) (units : Nat)
deriving DecidableEq, Repr

/-- How many units one is: 2^1074. -/
def f64One : Nat := 2 ^ 1074

/-- The value of a binary64 encoding: 1 sign bit, 11 exponent bits, 52 fraction bits. -/
def F64.ofBits (v : BitVec 64) : F64 :=
  let neg := v.getMsbD 0
  let e := (v.extractLsb' 52 11).toNat
  let f := (v.extractLsb' 0 52).toNat
  if e = 0 then .fin neg f
  else if e = 2047 then if f = 0 then .inf neg else .nan
  else .fin neg ((2 ^ 52 + f) * 2 ^ (e - 1))

/-- `num / den` rounded to a whole number, ties to even. -/
def roundHalfEven (num den : Nat) : Nat :=
  let q := num / den
  let r := num % den
  if 2 * r < den then q
  else if den < 2 * r then q + 1
  else if q % 2 = 0 then q else q + 1

/-- The binary64 nearest to `num / den` units, with 53 significant bits, or infinity. -/
def f64Round (neg : Bool) (num den : Nat) : F64 :=
  let q := num / den
  let shift := if q < 2 ^ 53 then 0 else Nat.log2 q - 52
  let u := roundHalfEven num (den * 2 ^ shift) * 2 ^ shift
  if u < 2 ^ 1024 * f64One then .fin neg u else .inf neg

/-- The binary64 nearest to the decimal literal `num / den`. -/
def F64.ofDecimal (num den : Nat) : F64 := f64Round false (num * f64One) den

/-- A 32-bit signed integer as a binary64, exact. -/
def F64.ofInt32 (v : BitVec 32) : F64 := .fin (v.toInt < 0) (v.toInt.natAbs * f64One)

/-- Negation, exact. -/
def F64.neg (x : F64) : F64 :=
  match x with
  | .nan => .nan
  | .inf n => .inf !n
  | .fin n u => .fin (!n) u

/-- Multiplication. -/
def F64.mul (x y : F64) : F64 :=
  match x, y with
  | .fin n u, .fin m v => f64Round (n != m) (u * v) f64One
  | .inf n, .inf m => .inf (n != m)
  | .inf n, .fin m v => if v = 0 then .nan else .inf (n != m)
  | .fin n u, .inf m => if u = 0 then .nan else .inf (n != m)
  | .nan, _ => .nan
  | _, .nan => .nan

/-- Division. -/
def F64.div (x y : F64) : F64 :=
  match x, y with
  | .fin n u, .fin m v =>
    if v = 0 then if u = 0 then .nan else .inf (n != m) else f64Round (n != m) (u * f64One) v
  | .fin n _, .inf m => .fin (n != m) 0
  | .inf n, .fin m _ => .inf (n != m)
  | .inf _, .inf _ => .nan
  | .nan, _ => .nan
  | _, .nan => .nan

/-- The value lies strictly between 0 and 1. -/
def F64.inUnitInterval (x : F64) : Bool :=
  match x with
  | .fin false u => 0 < u && u < f64One
  | _ => false

/-- A finite value as a signed count of units; none of an infinity or a NaN. -/
def F64.signedUnits (x : F64) : Option Int :=
  match x with
  | .fin false u => some (Int.ofNat u)
  | .fin true u => some (-Int.ofNat u)
  | _ => none

/-- floor of a value that is not negative; none of a negative one, an infinity or a NaN. -/
def F64.floorNat (x : F64) : Option Nat :=
  match x with
  | .fin false u => some (u / f64One)
  | .fin true u => if u = 0 then some 0 else none
  | _ => none

/-- ceil of a value that is not negative; none of a negative one, an infinity or a NaN. -/
def F64.ceilNat (x : F64) : Option Nat :=
  match x with
  | .fin false u => some ((u + (f64One - 1)) / f64One)
  | .fin true u => if u = 0 then some 0 else none
  | _ => none

end Sys2Proof.Machine
end

