-- ==== Sys2Proof/Machine/Script.lean ====
section
/-! DEFINITION. The host's pseudo-instructions (spec 30 R75, R76) as lists of statements; `new` (30 R77) stands in
Sizing.lean. -/

namespace Sys2Proof.Machine

/-- `wr32` to a register. -/
def wrReg (r : Reg) (v : Word) : Stmt := .wr .w32 r.offset v

/-- `rd32` of a register. -/
def rdReg (r : Reg) : Stmt := .rd .w32 r.offset

/-- The host offset of key byte `j`. An offset has 32 bits (20 R45), so no transaction reaches a byte `j >= 2^32 - 4096`;
DESIGN CHOICE (log 24): the offset wraps there. No byte of a legal key buffer is that far (00 R6). -/
def keyOffset (j : Nat) : Word := BitVec.ofNat 32 (keyBase + j)

/-- The key byte `s[j]`, zero-extended. -/
def scriptByte (key : List Byte) (j : Nat) : Word := (key.getD j 0#8).setWidth 32

/-- Word `q` of a key, as loadkey writes it (30 R75). -/
def loadKeyWord (key : List Byte) (q : Nat) : Stmt :=
  .wr .w32 (keyOffset (4 * q))
    (scriptByte key (4 * q) ||| scriptByte key (4 * q + 1) <<< 8 ||| scriptByte key (4 * q + 2) <<< 16 |||
      scriptByte key (4 * q + 3) <<< 24)

/-- Byte `j` of a key, as loadkey writes it (30 R75). -/
def loadKeyByte (key : List Byte) (j : Nat) : Stmt := .wr .w8 (keyOffset j) (scriptByte key j)

/-- `loadkey "S"` (30 R75): whole words first, single bytes for the tail, then KEY_LEN. For a key longer than
2^32 - 4096 bytes the spec has no such transactions; DESIGN CHOICE (log 24): offsets and length wrap mod 2^32. -/
def scriptLoadKey (key : List Byte) : List Stmt :=
  (List.range (key.length / 4)).map (loadKeyWord key) ++
    (List.range' (4 * (key.length / 4)) (key.length % 4)).map (loadKeyByte key) ++
    [wrReg .keyLen (BitVec.ofNat 32 key.length)]

/-- `hash SEED, "S"` (30 R76). -/
def scriptHash (seed : Word) (key : List Byte) : List Stmt :=
  scriptLoadKey key ++ [wrReg .arg0 seed, wrReg .cmd (encode .hash), .poll, rdReg .result]

/-- `config BC, HC` (30 R76). -/
def scriptConfig (bc hc : Word) : List Stmt :=
  [wrReg .arg0 bc, wrReg .arg1 hc, wrReg .cmd (encode .config), .poll]

/-- `check "S"` (30 R76). -/
def scriptCheck (key : List Byte) : List Stmt :=
  scriptLoadKey key ++ [wrReg .cmd (encode .check), .poll, rdReg .result]

/-- `add "S"` (30 R76). -/
def scriptAdd (key : List Byte) : List Stmt :=
  scriptLoadKey key ++ [wrReg .cmd (encode .add), .poll, rdReg .result]

/-- The statements of `l` issued one after the other, with nothing between them; the host's own script stays. -/
def issueAll (s : State) (l : List Stmt) : State := l.foldl (fun t x => runStmt t x t.env.script) s

end Sys2Proof.Machine
end

