-- ==== Sys2Proof/Machine/Sizing.lean ====
section
/-! DEFINITION. NEW, the host's sizing function (spec 42 R108 to R114), and the pseudo-instruction `new` (30 R77). NEW
runs on the host and changes nothing in the block; the natural logarithm LN64 is a parameter (00 R6, 93 I3), an
argument here. -/

namespace Sys2Proof.Machine

/-- What NEW returns (42 R108). -/
inductive Sizing where
  | filter (bitCount hashCount : Word)
  | invalidParameters
deriving DecidableEq, Repr

/-- `LN2SQ`, the binary64 nearest to the printed literal (00 R8, 42 R110). -/
def f64Ln2Sq : F64 := F64.ofDecimal ln2SqNum literalDen

/-- `LN2`, the binary64 nearest to the printed literal (00 R8, 42 R112). -/
def f64Ln2 : F64 := F64.ofDecimal ln2Num literalDen

/-- NEW's validation (42 R109): `capacity >= 1` and `0 < error_rate < 1`, which rejects a NaN. -/
def newAccepts (capacity : BitVec 32) (errorRate : BitVec 64) : Bool :=
  1 ≤ capacity.toInt && (F64.ofBits errorRate).inUnitInterval

/-- Bits per element, `bpe = fl(-LN64(error_rate) / LN2SQ)` (42 R110). -/
def bitsPerElement (ln64 : BitVec 64 → BitVec 64) (errorRate : BitVec 64) : F64 :=
  ((F64.ofBits (ln64 errorRate)).neg).div f64Ln2Sq

/-- `floor(p)` with `p = fl(to_f64(capacity) * bpe)` (42 R111). -/
def newBitCount (bpe : F64) (capacity : BitVec 32) : Option Nat := ((F64.ofInt32 capacity).mul bpe).floorNat

/-- `ceil(fl(LN2 * bpe))` (42 R112). -/
def newHashCount (bpe : F64) : Option Nat := (f64Ln2.mul bpe).ceilNat

/-- NEW after its validation (42 R111, R112): a bit count of 0 or above 2^32-1 is rejected. Where LN64 breaks what R110
says of it (`LN64(error_rate) < 0`), so that a count is no u32, NEW rejects too (log 16). -/
def sizeFilter (bpe : F64) (capacity : BitVec 32) : Sizing :=
  match newBitCount bpe capacity, newHashCount bpe with
  | some bc, some hc =>
    if 2 ^ 32 - 1 < bc then .invalidParameters
    else if bc = 0 then .invalidParameters
    else if 2 ^ 32 - 1 < hc then .invalidParameters
    else .filter (BitVec.ofNat 32 bc) (BitVec.ofNat 32 hc)
  | _, _ => .invalidParameters

/-- NEW(capacity, error_rate) (42 R114). -/
def newSizing (ln64 : BitVec 64 → BitVec 64) (capacity : BitVec 32) (errorRate : BitVec 64) : Sizing :=
  if newAccepts capacity errorRate then sizeFilter (bitsPerElement ln64 errorRate) capacity else .invalidParameters

/-- `new CAP, ER` (30 R77): a CONFIG with NEW's operands, or nothing at all. -/
def scriptNew (ln64 : BitVec 64 → BitVec 64) (capacity : BitVec 32) (errorRate : BitVec 64) : List Stmt :=
  match newSizing ln64 capacity errorRate with
  | .filter bc hc => scriptConfig bc hc
  | .invalidParameters => []

end Sys2Proof.Machine
end

