-- ==== Sys2Proof/Safety.lean ====
section
/-! DEFINITION. The terms claims are stated in: the invariant of spec 10 R44, what a command's key is, what counts as a
safe end of a run (60 R163), and the steps that leave the filter standing (44 R143, R144). -/

namespace Sys2Proof.Machine

/-- The invariant of the block. 10 R44 states (a) `readyFilter`, (b) `notReady` and (c) `padding`; the other clauses say
that the parameters are legal (00 R6) and that both memories are canonical and inside their space (10 R38, R39). -/
structure BlockInv (s : State) : Prop where
  params : s.params.wf
  keyWf : s.key.wf
  keyBelow : s.key.below s.params.keyMaxLen.toNat
  bitsWf : s.bits.wf
  bitsBelow : s.bits.below (bitsCapacity s.params)
  readyFilter : s.ready = true →
    1 ≤ s.bitCount.toNat ∧ s.bitCount.toNat ≤ s.params.maxBits.toNat ∧ 1 ≤ s.hashCount.toNat ∧
      ∀ j < byteCount s.bitCount, s.bits.read j ≠ none
  notReady : s.ready = false → s.bitCount = 0#32 ∧ s.hashCount = 0#32
  padding : s.ready = true → ∀ idx < 8 * byteCount s.bitCount, s.bitCount.toNat ≤ idx →
    bitRead s.epoch s.bits idx = false

/-- The key of a command in `s` is `key` (00 R12): KEY_LEN is its length, and each of its bytes stands in the buffer. -/
abbrev KeyIs (s : State) (key : List Byte) : Prop :=
  s.keyLen.toNat = key.length ∧ ∀ j < key.length, s.key.read j = key[j]?

/-- The key fits the key buffer: no KEY_TOO_LONG (60 R166). -/
abbrev KeyFits (s : State) : Prop := s.keyLen.toNat ≤ s.params.keyMaxLen.toNat

/-- Every register at its reset value (10 R43): the Engine idle, STATUS and every register 0, no byte of KEY or BITS
with a value. -/
abbrev ResetValues (t : State) : Prop :=
  t.busy = false ∧ t.ready = false ∧ t.hit = false ∧ t.fault = false ∧ t.overrun = false ∧ t.err = .ok ∧
    t.statusWord = 0#32 ∧ t.arg0 = 0#32 ∧ t.arg1 = 0#32 ∧ t.keyLen = 0#32 ∧ t.result = 0#32 ∧ t.bitCount = 0#32 ∧
    t.hashCount = 0#32 ∧ (∀ j, t.key.read j = none) ∧ (∀ j, t.bits.read j = none)

/-- A function applied to the next state of an outcome; a fault or a refusal stays as it is. -/
def mapNext (f : State → State) (o : Host.Outcome State Fault Refusal) : Host.Outcome State Fault Refusal :=
  match o with
  | .next t => .next (f t)
  | .fault r => .fault r
  | .refused r => .refused r

/-- The hidden registers put out of sight (10 R40). -/
def forgetScratch (s : State) : State := { s with scratch := Scratch.reset }

/-- A run may end here: the Engine is idle, the host's script is done, and no contract violation is recorded. A recorded
FAULT is never final (60 R163, 93 I19; log 21). -/
abbrev Final (s : State) : Prop := s.busy = false ∧ s.env.script = [] ∧ s.fault = false

/-- One step with no reset. -/
abbrev NoResetStep (s t : State) : Prop := step s = .next t ∧ nextTurn s ≠ .reset

/-- The next step completes a successful CONFIG (42 R104: the old filter is dropped). -/
abbrev InstallsFilter (s : State) : Prop :=
  nextTurn s = .engine ∧ s.inFlight = some (encode .config) ∧ configAccepts s = true

/-- One step with no reset and no successful CONFIG: the filter stands (44 R143, R144). -/
abbrev KeepsFilterStep (s t : State) : Prop := step s = .next t ∧ nextTurn s ≠ .reset ∧ ¬ InstallsFilter s

/-- Any number of steps with no reset and no successful CONFIG. -/
abbrev KeepsFilter : State → State → Prop := Relation.ReflTransGen KeepsFilterStep

end Sys2Proof.Machine
end

