-- ==== Sys2Proof/Certificates/Slice0/Obligations.lean ====
section
/-! DEFINITION. The statements about the block, each from the rule of spec/ that its docstring names. -/

open Sys2Proof Sys2Proof.Machine

/-! ## Reset and the invariant -/

/-- 10 R43, 70 R180: reset puts every register to its value, aborts a command in progress, leaves KEY and BITS without
values, and leaves the Engine idle and ready to take a write to CMD; the two constants stay. `State.reset` has the same
values. -/
def Obligations.ResetGivesEveryRegisterItsValue : Prop :=
  ResetValues State.reset ∧
    ∀ s : State, nextTurn s = .reset →
      ∃ t, step s = .next t ∧ ResetValues t ∧ t.params = s.params ∧
        ∀ c, hostWrite t .w32 0x000#32 c = { t with inFlight := some c }

/-- 10 R44, first half: reset meets the invariant, for every legal choice of the parameters. The parameters and the
hidden registers of `State.reset` are the model's choice (log 3, log 9). -/
def Obligations.ResetMeetsTheInvariant : Prop :=
  BlockInv State.reset ∧ ∀ p : Params, p.wf → BlockInv (State.resetWith p)

/-- 10 R44, second half, as an invariant of every state that meets it: whoever moves next, a step keeps it. -/
def Obligations.EveryStepKeepsTheInvariant : Prop :=
  ∀ s t : State, BlockInv s → step s = .next t → BlockInv t

/-- 10 R44 (a), (b), (c): whatever the host does, in whatever order the agents move, the three invariants hold whenever
BUSY = 0. -/
def Obligations.IdleStatesKeepTheFilterInvariants : Prop :=
  ∀ (p : Params) (e : Env) (n : Nat) (t : State), p.wf →
    core.run n { State.resetWith p with env := e } = .next t → t.busy = false →
      (t.ready = true → 1 ≤ t.bitCount.toNat ∧ t.bitCount.toNat ≤ p.maxBits.toNat ∧ 1 ≤ t.hashCount.toNat ∧
        ∀ j < (t.bitCount.toNat + 7) / 8, t.bits.read j ≠ none) ∧
      (t.ready = false → t.bitCount = 0#32 ∧ t.hashCount = 0#32) ∧
      (t.ready = true → ∀ idx, t.bitCount.toNat ≤ idx → idx < 8 * ((t.bitCount.toNat + 7) / 8) →
        bitRead t.epoch t.bits idx = false)

/-! ## Decoding and the step -/

/-- 70 R185: the Engine runs `decode(c)` and then the command's rule. A step is one turn (log 1): where it is the
Engine's and the word in progress decodes to `i`, the step is `exec i`, the turn being taken off the schedule. The same
of a state made by `withFetchWord` (log 4). -/
def Obligations.StepRunsTheDecodedCommand : Prop :=
  (∀ (s : State) (c : Word) (i : Instr), s.inFlight = some c → decode c = .ok i → nextTurn s = .engine →
      step s = exec i (takeTurn s)) ∧
    ∀ (s : State) (i : Instr),
      step (s.withFetchWord 32 (encode i).toNat) = exec i { s with inFlight := some (encode i) }

/-- 60 R165, 30 R72: an illegal word starts a command exactly like a legal one, and that command ends with ILLEGAL_CMD
and changes nothing else. -/
def Obligations.IllegalWordsEndWithIllegalCmd : Prop :=
  ∀ (s : State) (c : Word), ¬ commandLegal c →
    (s.busy = false → hostWrite s .w32 0x000#32 c = { s with inFlight := some c }) ∧
      (s.inFlight = some c → nextTurn s = .engine →
        step s = .next { takeTurn s with inFlight := none, err := .illegalCmd })

/-- 30 R67: decoding is total, exactly four of the 2^32 words are legal, and each is the command the rule names. The
command of any other word ends with ILLEGAL_CMD. -/
def Obligations.DecodeAcceptsExactlyFourWords : Prop :=
  ∀ c : Word,
    (decode c = .ok .hash ↔ c = 0x00000001#32) ∧ (decode c = .ok .config ↔ c = 0x00000002#32) ∧
      (decode c = .ok .check ↔ c = 0x00000003#32) ∧ (decode c = .ok .add ↔ c = 0x00000004#32) ∧
      ((∃ i, decode c = .ok i) ↔ commandLegal c) ∧
      (commandLegal c ↔ c = 0x00000001#32 ∨ c = 0x00000002#32 ∨ c = 0x00000003#32 ∨ c = 0x00000004#32) ∧
      (¬ commandLegal c → ∀ s : State, runCommand c s = .next { s with inFlight := none, err := .illegalCmd })

/-- 30 R66, R67: decoding gives back every encoded command, no other word decodes to it, and so it is for the words as
the opcode table numbers their bits. -/
def Obligations.DecodeAndEncodeAgree : Prop :=
  ∀ i : Instr, decode (encode i) = .ok i ∧ (∀ c, decode c = .ok i → c = encode i) ∧
    ∀ w, decodeTableWord 32 w = some i ↔ w % 2 ^ 32 = (encode i).toNat

/-- 30 R66: the four words of the opcode map, and some of the reserved ones (30 R72; vectors E4 to E7). -/
def Obligations.SpecWordsDecode : Prop :=
  decode 0x00000001#32 = .ok .hash ∧ decode 0x00000002#32 = .ok .config ∧ decode 0x00000003#32 = .ok .check ∧
    decode 0x00000004#32 = .ok .add ∧ decode 0x00000000#32 = .error .reservedOp ∧
    decode 0x00000005#32 = .error .reservedOp ∧ decode 0x00000012#32 = .error .reservedBitsSet ∧
    decode 0x80000003#32 = .error .reservedBitsSet

/-! ## HASH and HSH -/

/-- 41 R88: HASH with its key in place completes with RESULT = H(key, ARG0) and ERR = 0, and changes nothing else but
the hidden registers; with KEY_LEN > KEY_MAX_LEN it ends with KEY_TOO_LONG and changes nothing else. -/
def Obligations.HashWritesTheHash : Prop :=
  ∀ s : State,
    (∀ key : List Byte, KeyFits s → KeyIs s key →
      ∃ r, exec .hash s = .next { s with result := murmur key s.arg0, err := .ok, inFlight := none, scratch := r }) ∧
      (¬ KeyFits s → exec .hash s = .next { s with err := .keyTooLong, inFlight := none })

/-- 41 R91: two HASH commands given the same KEY_LEN, key bytes and ARG0 write the same RESULT, whatever else differs. -/
def Obligations.HashIsDeterministic : Prop :=
  ∀ s t s' t' : State, s.keyLen = t.keyLen → s.arg0 = t.arg0 →
    (∀ j < s.keyLen.toNat, s.key.read j = t.key.read j) → exec .hash s = .next s' → exec .hash t = .next t' →
      s'.err = .ok → t'.err = .ok → s'.result = t'.result

/-- 41 R90: HASH reads and writes no filter state: READY, BIT_COUNT, HASH_COUNT and BITS may be anything, and stay. -/
def Obligations.HashIgnoresTheFilter : Prop :=
  ∀ (s : State) (ready : Bool) (bc hc : Word) (bits : Memory),
    exec .hash { s with ready := ready, bitCount := bc, hashCount := hc, bits := bits } =
      mapNext (fun t => { t with ready := ready, bitCount := bc, hashCount := hc, bits := bits }) (exec .hash s)

/-- 41 R81 to R83, R85, R86: the stages of H with the constants as the spec prints them, a block word as its four bytes
side by side, and their order. (The stage TAIL is stated next.) -/
def Obligations.HashStagesFollowTheRules : Prop :=
  ∀ (key : List Byte) (seed h k : Word) (n t : Nat),
    hashInit seed n = seed ^^^ BitVec.ofNat 32 n ∧
      packWord key t =
        key.getD (t + 3) 0#8 ++ key.getD (t + 2) 0#8 ++ key.getD (t + 1) 0#8 ++ key.getD t 0#8 ∧
      mixWord h (scrambleWord k) =
        (h * 0x5bd1e995#32) ^^^
          (((k * 0x5bd1e995#32) ^^^ ((k * 0x5bd1e995#32) >>> 24)) * 0x5bd1e995#32) ∧
      hashFmix h =
        ((h ^^^ (h >>> 13)) * 0x5bd1e995#32) ^^^ (((h ^^^ (h >>> 13)) * 0x5bd1e995#32) >>> 15) ∧
      hashBlocks key h 0 = h ∧
      hashBlocks key h (n + 1) = mixWord (hashBlocks key h n) (scrambleWord (packWord key (4 * n))) ∧
      murmur key seed =
        hashFmix (hashTail key (4 * (key.length / 4)) (key.length % 4)
          (hashBlocks key (hashInit seed key.length) (key.length / 4)))

/-- 41 R84 with the reading of 90 C1: the tail steps fall through, and every non-empty tail multiplies exactly once. -/
def Obligations.TailFallsThroughAndMultipliesOnce : Prop :=
  ∀ (key : List Byte) (t : Nat) (h : Word),
    hashTail key t 0 h = h ∧
      hashTail key t 1 h = (h ^^^ keyByte key t) * 0x5bd1e995#32 ∧
      hashTail key t 2 h = (h ^^^ (keyByte key (t + 1) <<< 8) ^^^ keyByte key t) * 0x5bd1e995#32 ∧
      hashTail key t 3 h =
        (h ^^^ (keyByte key (t + 2) <<< 16) ^^^ (keyByte key (t + 1) <<< 8) ^^^ keyByte key t) * 0x5bd1e995#32

/-- 41 R89 (a), (b): the empty key hashes to FMIX of the seed, the empty key with seed 0 to 0, and a key of whole blocks
has no tail step. -/
def Obligations.HashOfEmptyAndWholeBlocks : Prop :=
  (∀ seed : Word, murmur [] seed = hashFmix seed) ∧ murmur [] 0#32 = 0#32 ∧
    ∀ (key : List Byte) (seed : Word), key.length % 4 = 0 →
      murmur key seed = hashFmix (hashBlocks key (hashInit seed key.length) (key.length / 4))

/-- 41 R87: HSH as a pipeline over its registers, from any values in them, puts out H(key, seed), and touches no register
of PRB or BAR. That pos stands at the key's length afterwards is no rule of the spec: it is the model's choice (log 9). -/
def Obligations.PipelineComputesH : Prop :=
  ∀ (key : List Byte) (seed : Word) (r : Scratch),
    (hshRun key seed r).h = murmur key seed ∧ (hshRun key seed r).pos = key.length ∧
      (hshRun key seed r).a = r.a ∧ (hshRun key seed r).b = r.b ∧ (hshRun key seed r).i = r.i ∧
      (hshRun key seed r).hits = r.hits ∧ (hshRun key seed r).idx = r.idx

/-- 20 R51: a word the host writes at key offset 4q is HSH's block word q, and a byte read there sees its lane. -/
def Obligations.HostWordIsTheBlockWord : Prop :=
  ∀ (s : State) (q : Nat) (w : Word) (key : List Byte), s.params.wf → s.busy = false →
    4 * q + 4 ≤ s.params.keyMaxLen.toNat →
      (KeyIs (hostWrite s .w32 (keyOffset (4 * q)) w) key → 4 * q + 4 ≤ key.length → packWord key (4 * q) = w) ∧
        ∀ t < 4, hostRead (hostWrite s .w32 (keyOffset (4 * q)) w) .w8 (keyOffset (4 * q + t)) =
          (w.extractLsb' (8 * t) 8).setWidth 32

/-! ## CONFIG -/

/-- 42 R100 to R103: CONFIG accepts its operands exactly when 1 <= ARG0 <= MAX_BITS and 1 <= ARG1. Then it zeroes the
bytes in use, leaves the bytes above as they were, sets BIT_COUNT, HASH_COUNT, READY and ERR = 0, and changes nothing
else. Otherwise it changes nothing but ERR = INVALID_PARAMS and BUSY. -/
def Obligations.ConfigMakesTheFilter : Prop :=
  ∀ s : State,
    (1 ≤ s.arg0.toNat ∧ s.arg0.toNat ≤ s.params.maxBits.toNat ∧ 1 ≤ s.arg1.toNat →
      ∃ m, exec .config s = .next { s with
            bits := m, bitCount := s.arg0, hashCount := s.arg1, ready := true, err := .ok, inFlight := none } ∧
          (∀ j < (s.arg0.toNat + 7) / 8, m.read j = some 0#8) ∧
          ∀ j, (s.arg0.toNat + 7) / 8 ≤ j → m.read j = s.bits.read j) ∧
      (¬ (1 ≤ s.arg0.toNat ∧ s.arg0.toNat ≤ s.params.maxBits.toNat ∧ 1 ≤ s.arg1.toNat) →
        exec .config s = .next { s with err := .invalidParams, inFlight := none })

/-- 42 R105: the byte count by shift is the exact ceiling, and is between 1 and the array's size for every legal
bit_count. -/
def Obligations.ByteCountIsTheCeiling : Prop :=
  ∀ bc : Word, byteCount bc = (bc.toNat + 7) / 8 ∧
    ∀ p : Params, 1 ≤ bc.toNat → bc.toNat ≤ p.maxBits.toNat →
      1 ≤ byteCount bc ∧ byteCount bc ≤ (p.maxBits.toNat + 7) / 8

/-- 42 R106, 44 R147 (e): after a successful CONFIG every bit of the bytes in use is 0, and a CHECK of any key in place
completes with false. -/
def Obligations.FreshFilterHoldsNothing : Prop :=
  ∀ s t : State, exec .config s = .next t → t.err = .ok →
    (∀ idx < 8 * ((t.bitCount.toNat + 7) / 8), bitRead t.epoch t.bits idx = false) ∧
      ∀ key : List Byte, KeyFits t → KeyIs t key →
        ∃ u, exec .check t = .next u ∧ u.hit = false ∧ u.result = 0#32 ∧ u.err = .ok

/-! ## PRB -/

/-- 43 R124: a 64-bit datapath computes the exact index for every legal operand, `a + i*b` staying below 2^64, and the
index is below bc; a 32-bit wrapping datapath is not enough: on the two hashes of some key, a legal bit count and a legal
probe number it gives another index (vector P1). -/
def Obligations.SixtyFourBitDatapathIsExact : Prop :=
  (∀ (a b bc : Word) (i : Nat), bc ≠ 0#32 → i ≤ 2 ^ 32 - 2 →
      a.toNat + i * b.toNat < 2 ^ 64 ∧
        (probeIndex64 a b bc (BitVec.ofNat 64 i)).toNat = (a.toNat + i * b.toNat) % bc.toNat ∧
        probeIndex a b bc.toNat i = (a.toNat + i * b.toNat) % bc.toNat ∧ probeIndex a b bc.toNat i < bc.toNat) ∧
    ∃ (key : List Byte) (bc : Word) (i : Nat), bc ≠ 0#32 ∧ i ≤ 2 ^ 32 - 2 ∧
      probeIndex32 (probeA key) (probeB key) bc.toNat i ≠ probeIndex (probeA key) (probeB key) bc.toNat i

/-- 43 R128: the incremental form gives the same indices. -/
def Obligations.IncrementalIndicesAgree : Prop :=
  ∀ (a b : Word) (bc : Nat), 1 ≤ bc →
    probeIndex a b bc 0 = a.toNat % bc ∧
      ∀ i, probeIndex a b bc (i + 1) = probeIndexStep (b.toNat % bc) bc (probeIndex a b bc i)

/-- 43 R129 (a), (b), (d): one bit makes every index 0; b a multiple of bc makes every index the first; for a power of
two a 32-bit wrapping datapath gives the same indices. -/
def Obligations.ProbeCornerCases : Prop :=
  (∀ (a b : Word) (i : Nat), probeIndex a b 1 i = 0) ∧
    (∀ (a b : Word) (bc i : Nat), b.toNat % bc = 0 → probeIndex a b bc i = a.toNat % bc) ∧
    ∀ (a b : Word) (k i : Nat), k ≤ 31 → probeIndex32 a b (2 ^ k) i = probeIndex a b (2 ^ k) i

/-! ## CHECK and ADD -/

/-- 44 R136: CHECK with READY = 1 and its key in place completes with HIT and RESULT saying whether every probed bit is
set, and changes nothing else but ERR, BUSY and the hidden registers; BITS stays byte for byte. With READY = 0 it ends
with NOT_READY and sets FAULT; with an overlong key it ends with KEY_TOO_LONG. (`BIT_COUNT ≠ 0` holds in every state
that meets the invariant, 10 R44.) -/
def Obligations.CheckReportsWhetherEveryBitIsSet : Prop :=
  ∀ s : State,
    (∀ key : List Byte, s.ready = true → s.bitCount ≠ 0#32 → KeyFits s → KeyIs s key →
      let a := murmur key 0x9747b28c#32
      let b := murmur key a
      let v := decide (∀ i < s.hashCount.toNat,
        bitRead s.epoch s.bits ((a.toNat + i * b.toNat) % s.bitCount.toNat) = true)
      ∃ r, exec .check s = .next { s with
        hit := v, result := if v then 1#32 else 0#32, err := .ok, inFlight := none, scratch := r }) ∧
      (s.ready = false → exec .check s = .next { s with err := .notReady, fault := true, inFlight := none }) ∧
      (s.ready = true → ¬ KeyFits s → exec .check s = .next { s with err := .keyTooLong, inFlight := none })

/-- 44 R138, R142: ADD with READY = 1 and its key in place completes: HIT and RESULT say whether every probed bit was set
before, afterwards exactly the old bits and the probed bits are set, every byte of BITS that holds no probed bit is as
before, and nothing else changes but ERR, BUSY and the hidden registers. Its errors are CHECK's, and set no bit. -/
def Obligations.AddSetsEveryProbedBit : Prop :=
  ∀ s : State,
    (∀ key : List Byte, s.ready = true → s.bitCount ≠ 0#32 → KeyFits s → KeyIs s key →
      let a := murmur key 0x9747b28c#32
      let b := murmur key a
      let v := decide (∀ i < s.hashCount.toNat,
        bitRead s.epoch s.bits ((a.toNat + i * b.toNat) % s.bitCount.toNat) = true)
      ∃ m r, exec .add s = .next { s with
          bits := m, hit := v, result := if v then 1#32 else 0#32, err := .ok, inFlight := none, scratch := r } ∧
        (∀ j, bitRead s.epoch m j = true ↔ bitRead s.epoch s.bits j = true ∨
          ∃ i < s.hashCount.toNat, (a.toNat + i * b.toNat) % s.bitCount.toNat = j) ∧
        ∀ j, (∀ i < s.hashCount.toNat, (a.toNat + i * b.toNat) % s.bitCount.toNat / 8 ≠ j) →
          m.read j = s.bits.read j) ∧
      (s.ready = false → exec .add s = .next { s with err := .notReady, fault := true, inFlight := none }) ∧
      (s.ready = true → ¬ KeyFits s → exec .add s = .next { s with err := .keyTooLong, inFlight := none })

/-- 44 R141: ADD's result is the result of a CHECK of the same key on the array before the ADD; so is its error. -/
def Obligations.AddAnswersTheCheckBeforeIt : Prop :=
  ∀ s t : State, exec .add s = .next t →
    ∃ u, exec .check s = .next u ∧ t.hit = u.hit ∧ t.result = u.result ∧ t.err = u.err ∧ t.fault = u.fault

/-- 44 R137: CHECK's result is the AND of the probed bits; it does not depend on the order of the
probes, and stopping at the first clear bit gives the same. -/
def Obligations.CheckMayReorderAndStopEarly : Prop :=
  ∀ (s t : State) (key : List Byte) (l : List Nat), KeyIs s key → exec .check s = .next t → t.err = .ok →
    l.Perm (probeIndices key s.bitCount.toNat s.hashCount.toNat) →
      t.hit = l.all (bitRead s.epoch s.bits) ∧ t.hit = checkShortCircuit s.epoch s.bits l

/-- 44 R142: a BAR that reads all probed bits of the old array and then sets them all, in any order, gives ADD's result
and ADD's array. -/
def Obligations.ParallelAddAgrees : Prop :=
  ∀ (s t : State) (key : List Byte) (l : List Nat), KeyIs s key → exec .add s = .next t → t.err = .ok →
    l.Perm (probeIndices key s.bitCount.toNat s.hashCount.toNat) →
      t.hit = (addParallel s.epoch s.bits l).1 ∧
        ∀ j, bitRead s.epoch t.bits j = bitRead s.epoch (addParallel s.epoch s.bits l).2 j

/-- 44 R143, 20 R64: over every step. A bit of the array changes only by a reset, by a successful CONFIG, or from 0 to 1
by an ADD; nothing clears a single bit. -/
def Obligations.BitsChangeOnlyByConfigAddAndReset : Prop :=
  ∀ (s t : State) (idx : Nat), step s = .next t → nextTurn s ≠ .reset →
    bitRead t.epoch t.bits idx ≠ bitRead s.epoch s.bits idx →
      InstallsFilter s ∨
        (nextTurn s = .engine ∧ s.inFlight = some (encode .add) ∧ bitRead s.epoch s.bits idx = false ∧
          bitRead t.epoch t.bits idx = true)

/-- 44 R144: after an ADD of a key that completes without error, and any steps with no successful CONFIG and no reset, a
CHECK of that key completes with true. -/
def Obligations.NoFalseNegatives : Prop :=
  ∀ (s t u : State) (key : List Byte), KeyIs s key → exec .add s = .next t → t.err = .ok → KeepsFilter t u →
    KeyIs u key → ∃ v, exec .check u = .next v ∧ v.hit = true ∧ v.result = 1#32 ∧ v.err = .ok

/-- 44 R145: a second ADD of the same key, with no successful CONFIG and no reset between the two, completes with true,
raises no error, and changes no bit. -/
def Obligations.InsertionIsIdempotent : Prop :=
  ∀ (s t u : State) (key : List Byte), KeyIs s key → exec .add s = .next t → t.err = .ok → KeepsFilter t u →
    KeyIs u key → ∃ v, exec .add u = .next v ∧ v.hit = true ∧ v.result = 1#32 ∧ v.err = .ok ∧ v.bits = u.bits

/-- 43 R127: in no state that meets the invariant does a probe take a modulus by zero. -/
def Obligations.ProbeModulusIsNeverZero : Prop :=
  ∀ s : State, BlockInv s → step s ≠ .fault .probeModulusZero

/-! ## Errors, completion, whole-machine rules -/

/-- 60 R160, R164: a command that completes leaves BUSY = 0 and either ERR = 0, or an error code and nothing else
changed but FAULT, which NOT_READY sets. It holds of every command word, legal or not. -/
def Obligations.ErrorsHaveNoPartialEffect : Prop :=
  ∀ (c : Word) (s t : State), runCommand c s = .next t →
    t.busy = false ∧
      (t.err = .ok ∨
        ∃ code, code ≠ .ok ∧
          t = { s with err := code, fault := if code = .notReady then true else s.fault, inFlight := none })

/-- 60 R161 to R163, R165 to R167: which command reports which error, exactly when, in the order of R167, and the codes. -/
def Obligations.ErrorCausesAndPriority : Prop :=
  (ErrCode.ok.code = 0#4 ∧ ErrCode.invalidParams.code = 1#4 ∧ ErrCode.notReady.code = 2#4 ∧
      ErrCode.illegalCmd.code = 3#4 ∧ ErrCode.keyTooLong.code = 4#4) ∧
    ∀ s t : State,
      (∀ c : Word, runCommand c s = .next t → (t.err = .illegalCmd ↔ ¬ commandLegal c)) ∧
        (exec .hash s = .next t →
          (t.err = .ok ↔ KeyFits s) ∧ (t.err = .keyTooLong ↔ ¬ KeyFits s)) ∧
        (exec .config s = .next t →
          (t.err = .invalidParams ↔ s.arg0 = 0#32 ∨ s.params.maxBits.toNat < s.arg0.toNat ∨ s.arg1 = 0#32) ∧
            (t.err = .ok ↔ ¬ (s.arg0 = 0#32 ∨ s.params.maxBits.toNat < s.arg0.toNat ∨ s.arg1 = 0#32))) ∧
        ∀ i : Instr, i = .check ∨ i = .add → exec i s = .next t →
          (t.err = .notReady ↔ s.ready = false) ∧ (t.err = .keyTooLong ↔ s.ready = true ∧ ¬ KeyFits s) ∧
            (t.err = .ok ↔ s.ready = true ∧ KeyFits s) ∧ (s.ready = false → t.fault = true)

/-- 60 R169, 10 R26, R27: FAULT and OVERRUN stay set over every step but a reset. FAULT is newly set only by a CHECK or
ADD with READY = 0, OVERRUN only by a host write while BUSY = 1. -/
def Obligations.StickyBitsStay : Prop :=
  ∀ s t : State, step s = .next t → nextTurn s ≠ .reset →
    (s.fault = true → t.fault = true) ∧ (s.overrun = true → t.overrun = true) ∧
      (t.fault = true → s.fault = true ∨
        (nextTurn s = .engine ∧ s.ready = false ∧
          (s.inFlight = some (encode .check) ∨ s.inFlight = some (encode .add)))) ∧
      (t.overrun = true → s.overrun = true ∨
        (nextTurn s = .host ∧ s.busy = true ∧ ∃ w off data rest, s.env.script = .wr w off data :: rest))

/-- 60 R163, 93 I19: from a state with FAULT set no steps without a reset lead to a final state.
What makes a state final beside FAULT = 0 is the model's own notion (log 21). -/
def Obligations.RecordedFaultIsNeverFinal : Prop :=
  ∀ s t : State, s.fault = true → Relation.ReflTransGen NoResetStep s t → t.fault = true ∧ ¬ Final t

/-- 10 R24, R34, R35, 70 R182: READY, BIT_COUNT and HASH_COUNT change only by a successful CONFIG or a reset, and READY
falls only by a reset. -/
def Obligations.FilterRegistersChangeOnlyByConfigAndReset : Prop :=
  ∀ s t : State, step s = .next t →
    (t.ready ≠ s.ready ∨ t.bitCount ≠ s.bitCount ∨ t.hashCount ≠ s.hashCount →
      nextTurn s = .reset ∨ InstallsFilter s) ∧
      (s.ready = true → t.ready = false → nextTurn s = .reset)

/-- 10 R30, R31, R32, R38: no command writes ARG0, ARG1, KEY_LEN or a byte of KEY; nor OVERRUN, a parameter, or anything
of the host side. -/
def Obligations.CommandsLeaveTheirOperands : Prop :=
  ∀ (c : Word) (s t : State), runCommand c s = .next t →
    t.arg0 = s.arg0 ∧ t.arg1 = s.arg1 ∧ t.keyLen = s.keyLen ∧ (∀ j, t.key.read j = s.key.read j) ∧
      t.overrun = s.overrun ∧ t.params = s.params ∧ t.epoch = s.epoch ∧ t.env = s.env

/-- 10 R40, 43 R130: no run of any length shows what the hidden registers hold: with other values in them every run is
the same, but for the hidden registers themselves. -/
def Obligations.HiddenRegistersNeverShow : Prop :=
  ∀ (n : Nat) (s : State) (r : Scratch),
    mapNext forgetScratch (core.run n { s with scratch := r }) = mapNext forgetScratch (core.run n s)

/-- 70 R190: a command in progress comes to an end: whatever turns the schedule holds, after at most one step more than
that BUSY is 0, or the model has stopped at a key byte nothing has written (70 R184; log 5). The bound is the model's, no count of the
spec's (R190 gives none): it rests on the model's schedule and one-turn completion (log 19) and on the Engine moving
where the schedule is empty (log 2). -/
def Obligations.CommandsCompleteInBoundedSteps : Prop :=
  ∀ s : State, BlockInv s → s.busy = true →
    ∃ n ≤ s.env.schedule.length + 1,
      (∃ t : State, core.run n s = .next t ∧ t.busy = false) ∨
        ∃ j, core.run n s = .fault (.keyByteUnwritten j)

/-- 70 R184, 93 I5: HASH, and CHECK and ADD while READY = 1, stop with the model's fault where a byte of a key that fits
was never written, the first such byte; CONFIG never does, and no command does for a key whose bytes were all
written. -/
def Obligations.UnwrittenKeyByteIsAFault : Prop :=
  ∀ (s : State) (j : Nat),
    (KeyFits s → j < s.keyLen.toNat → s.key.read j = none → (∀ i < j, s.key.read i ≠ none) →
      exec .hash s = .fault (.keyByteUnwritten j) ∧
        (s.ready = true → exec .check s = .fault (.keyByteUnwritten j) ∧ exec .add s = .fault (.keyByteUnwritten j))) ∧
      ∀ i : Instr, exec i s = .fault (.keyByteUnwritten j) →
        i ≠ .config ∧ KeyFits s ∧ j < s.keyLen.toNat ∧ s.key.read j = none

/-! ## The host port -/

/-- 70 R185, 10 R21: a 32-bit write to CMD while BUSY = 0 starts a command with the word written, whatever it is; BUSY
is then 1, CMD still reads 0, and nothing else changes. -/
def Obligations.WriteToCmdStartsACommand : Prop :=
  ∀ (s : State) (c : Word), s.busy = false →
    hostWrite s .w32 0x000#32 c = { s with inFlight := some c } ∧ (hostWrite s .w32 0x000#32 c).busy = true ∧
      hostRead (hostWrite s .w32 0x000#32 c) .w32 0x000#32 = 0#32

/-- 70 R186: while BUSY = 1 a host write of any width at any offset is dropped and sets OVERRUN. Any turn of the host
leaves the command in progress, its operands, and what every location reads; STATUS alone may differ, in OVERRUN. -/
def Obligations.BusyBlockDropsWrites : Prop :=
  ∀ s : State, s.busy = true →
    (∀ w off data, hostWrite s w off data = { s with overrun := true }) ∧
      ∀ t, nextTurn s = .host → step s = .next t →
        t.busy = true ∧ (∃ o e, t = { s with overrun := o, env := e }) ∧
          (∀ w off, off ≠ 0x004#32 → hostRead t w off = hostRead s w off) ∧
          (∀ k, k ≠ 4 → (hostRead t .w32 0x004#32).getLsbD k = (hostRead s .w32 0x004#32).getLsbD k) ∧
          (hostRead t .w32 0x004#32).getLsbD 4 = t.overrun

/-- 20 R57: a read changes no state of the block; the host gets what the location reads as. Only a 32-bit write to CMD
starts a command. -/
def Obligations.ReadsHaveNoSideEffects : Prop :=
  (∀ (s t : State) (w : Width) (off : Word) (rest : List Stmt), nextTurn s = .host →
      s.env.script = .rd w off :: rest → step s = .next t →
        t = { s with env := t.env } ∧ t.env.script = rest ∧
          t.env.responses = ⟨off, w, hostRead s w off⟩ :: s.env.responses) ∧
    ∀ (s : State) (w : Width) (off data : Word), s.busy = false → (hostWrite s w off data).busy = true →
      w = .w32 ∧ off = 0x000#32

/-- 10 R20, R21, R36, R37, 20 R47: what each register reads, which three a write changes (and they alone), and that a
write to a read-only register is dropped. -/
def Obligations.RegisterMap : Prop :=
  ∀ (s : State) (d : Word),
    (hostRead s .w32 0x000#32 = 0#32 ∧ hostRead s .w32 0x004#32 = s.statusWord ∧
      hostRead s .w32 0x008#32 = s.arg0 ∧ hostRead s .w32 0x00C#32 = s.arg1 ∧ hostRead s .w32 0x010#32 = s.keyLen ∧
      hostRead s .w32 0x014#32 = s.result ∧ hostRead s .w32 0x018#32 = s.bitCount ∧
      hostRead s .w32 0x01C#32 = s.hashCount ∧ hostRead s .w32 0x020#32 = s.params.maxBits ∧
      hostRead s .w32 0x024#32 = s.params.keyMaxLen) ∧
      (s.busy = false →
        hostWrite s .w32 0x008#32 d = { s with arg0 := d } ∧ hostWrite s .w32 0x00C#32 d = { s with arg1 := d } ∧
          hostWrite s .w32 0x010#32 d = { s with keyLen := d } ∧
          ∀ off ∈ [0x004#32, 0x014#32, 0x018#32, 0x01C#32, 0x020#32, 0x024#32], hostWrite s .w32 off d = s)

/-- 10 R22, R29: the fields of STATUS, its reserved bits, and that a write to it changes nothing while idle and sets
OVERRUN alone while busy. -/
def Obligations.StatusLayout : Prop :=
  ∀ s : State,
    s.statusWord.getLsbD 0 = s.busy ∧ s.statusWord.getLsbD 1 = s.ready ∧ s.statusWord.getLsbD 2 = s.hit ∧
      s.statusWord.getLsbD 3 = s.fault ∧ s.statusWord.getLsbD 4 = s.overrun ∧
      s.statusWord.extractLsb' 8 4 = s.err.code ∧ s.statusWord.extractLsb' 5 3 = 0#3 ∧
      s.statusWord.extractLsb' 12 20 = 0#20 ∧
      ∀ d, (s.busy = false → hostWrite s .w32 0x004#32 d = s) ∧
        (s.busy = true → hostWrite s .w32 0x004#32 d = { s with overrun := true })

/-- 20 R48, R50: an aligned transaction inside the key buffer covers exactly its bytes, little-endian, for a write and
for a read. -/
def Obligations.KeyBufferLanes : Prop :=
  ∀ (s : State) (w : Width) (j : Nat), s.params.wf → j % w.bytes = 0 → j + w.bytes ≤ s.params.keyMaxLen.toNat →
    (∀ d, s.busy = false →
      ∃ m, hostWrite s w (keyOffset j) d = { s with key := m } ∧
        (∀ q < w.bytes, m.read (j + q) = some (d.extractLsb' (8 * q) 8)) ∧
        ∀ k, k < j ∨ j + w.bytes ≤ k → m.read k = s.key.read k) ∧
      (∀ q < w.bytes, ∀ v, s.key.read (j + q) = some v →
        (hostRead s w (keyOffset j)).extractLsb' (8 * q) 8 = v) ∧
      (hostRead s w (keyOffset j)).toNat < 2 ^ (8 * w.bytes)

/-- 20 R49: a transaction that is neither a 32-bit aligned one to a register nor an aligned one inside the key buffer
reads 0, and as a write changes nothing while idle and sets OVERRUN alone while busy. -/
def Obligations.MeaninglessTransactionsAreDropped : Prop :=
  ∀ (s : State) (w : Width) (off d : Word),
    ¬ (w = .w32 ∧ off.toNat % 4 = 0 ∧ off.toNat < 0x28) →
    ¬ (0x1000 ≤ off.toNat ∧ off.toNat % w.bytes = 0 ∧ off.toNat + w.bytes ≤ 0x1000 + s.params.keyMaxLen.toNat) →
      hostRead s w off = 0#32 ∧ (s.busy = false → hostWrite s w off d = s) ∧
        (s.busy = true → hostWrite s w off d = { s with overrun := true })

/-- 20 R52: the host cannot read or write BITS: no read depends on it, and every write leaves it and is the same
whatever it holds. -/
def Obligations.BitArrayIsOutOfTheHostsReach : Prop :=
  ∀ (s : State) (m : Memory) (w : Width) (off d : Word),
    hostRead { s with bits := m } w off = hostRead s w off ∧ (hostWrite s w off d).bits = s.bits ∧
      hostWrite { s with bits := m } w off d = { hostWrite s w off d with bits := m }

/-- 30 R75: loadkey leaves the key in the buffer and its length in KEY_LEN, and changes nothing else. -/
def Obligations.LoadKeyPutsTheKeyInPlace : Prop :=
  ∀ (s : State) (key : List Byte), s.params.wf → s.busy = false → key.length ≤ s.params.keyMaxLen.toNat →
    ∃ m, issueAll s (scriptLoadKey key) = { s with key := m, keyLen := BitVec.ofNat 32 key.length } ∧
      KeyIs (issueAll s (scriptLoadKey key)) key ∧ ∀ j, key.length ≤ j → m.read j = s.key.read j

/-- 30 R74: `poll` reads STATUS, and stays the host's next statement exactly while BUSY = 1 (log 14). -/
def Obligations.PollWaitsForTheEngine : Prop :=
  ∀ (s : State) (rest : List Stmt), nextTurn s = .host → s.env.script = .poll :: rest →
    ∃ t, step s = .next t ∧ t = { s with env := t.env } ∧
      t.env.script = (if s.busy = true then .poll :: rest else rest) ∧
      t.env.responses = ⟨0x004#32, .w32, s.statusWord⟩ :: s.env.responses

/-! ## NEW, on the host -/

/-- 42 R109, 30 R77: NEW rejects a capacity below 1 and every error rate that is not a number strictly between 0 and 1, a
NaN among them, whatever LN64 is; the host then issues nothing. -/
def Obligations.NewRejectsBadArguments : Prop :=
  ∀ (ln64 : BitVec 64 → BitVec 64) (capacity : BitVec 32) (errorRate : BitVec 64),
    capacity.toInt < 1 ∨ ¬ (∃ u, F64.ofBits errorRate = .fin false u ∧ 0 < u ∧ u < 2 ^ 1074) →
      newSizing ln64 capacity errorRate = .invalidParameters ∧ scriptNew ln64 capacity errorRate = []

/-- 42 R111, R112: what NEW answers are legal operands of CONFIG but for MAX_BITS: 1 <= bit_count and 1 <= hash_count,
whatever LN64 is. For an LN64 that breaks 42 R110 this holds because NEW then rejects, which is the model's choice
(log 16); the arithmetic is IEEE 754's, which the model presumes (log 17). -/
def Obligations.NewGivesLegalOperands : Prop :=
  ∀ (ln64 : BitVec 64 → BitVec 64) (capacity : BitVec 32) (errorRate : BitVec 64) (bc hc : Word),
    newSizing ln64 capacity errorRate = .filter bc hc →
      1 ≤ bc.toNat ∧ 1 ≤ hc.toNat ∧ scriptNew ln64 capacity errorRate = scriptConfig bc hc

/-- 42 R115: sizing is monotone. A larger capacity never gives a smaller bit_count, whatever LN64 is; a smaller error
rate never gives a smaller bit_count, where LN64 is monotone on (0,1). That an LN64 which breaks 42 R110 makes NEW reject
is the model's choice (log 16); the arithmetic is IEEE 754's, which the model presumes (log 17). -/
def Obligations.SizingIsMonotone : Prop :=
  ∀ ln64 : BitVec 64 → BitVec 64,
    (∀ (capacity capacity' : BitVec 32) (errorRate : BitVec 64) (bc hc bc' hc' : Word),
      capacity.toInt ≤ capacity'.toInt → newSizing ln64 capacity errorRate = .filter bc hc →
        newSizing ln64 capacity' errorRate = .filter bc' hc' → bc.toNat ≤ bc'.toNat) ∧
      ((∀ (x y : BitVec 64) (u v : Nat) (i j : Int), F64.ofBits x = .fin false u → F64.ofBits y = .fin false v →
          0 < u → u ≤ v → v < 2 ^ 1074 → (F64.ofBits (ln64 x)).signedUnits = some i →
            (F64.ofBits (ln64 y)).signedUnits = some j → i ≤ j) →
        ∀ (capacity : BitVec 32) (errorRate errorRate' : BitVec 64) (u v : Nat) (bc hc bc' hc' : Word),
          F64.ofBits errorRate = .fin false u → F64.ofBits errorRate' = .fin false v → u ≤ v →
            newSizing ln64 capacity errorRate = .filter bc hc →
              newSizing ln64 capacity errorRate' = .filter bc' hc' → bc'.toNat ≤ bc.toNat)
end

