-- ==== Sys2Proof/Laws/Binary64.lean ====
section
/-! SUPPORT. Rounding to nearest, ties to even, is monotone and leaves whole numbers alone (spec 42 R110 to R112). -/

namespace Sys2Proof.Machine

/-- Rounding never goes below a whole number the value reaches. -/
theorem le_roundHalfEven {num den K : Nat} (hd : 0 < den) (h : K * den ≤ num) : K ≤ roundHalfEven num den := by
  have : K ≤ num / den := (Nat.le_div_iff_mul_le hd).2 h
  unfold roundHalfEven; simp only []; split <;> (try split) <;> (try split) <;> omega

/-- Rounding never goes above a whole number the value stays under. -/
theorem roundHalfEven_le {num den K : Nat} (hd : 0 < den) (h : num ≤ K * den) : roundHalfEven num den ≤ K := by
  have h1 := Nat.div_add_mod num den
  have h2 := Nat.mod_lt num hd
  unfold roundHalfEven; simp only []
  rcases Nat.lt_or_ge (num / den) K with h' | h'
  · split <;> (try split) <;> (try split) <;> omega
  · have h3 : K * den ≤ num / den * den := Nat.mul_le_mul_right _ h'
    have h4 : num / den * den = den * (num / den) := Nat.mul_comm _ _
    have h5 : num % den = 0 := by omega
    have h6 : num / den ≤ K := by
      by_contra hc
      have : (K + 1) * den ≤ num / den * den := Nat.mul_le_mul_right _ (by omega)
      rw [Nat.add_mul] at this; omega
    rw [h5]; split
    · omega
    · omega

/-- A larger value never rounds to less. -/
theorem roundHalfEven_mono {n n' d d' : Nat} (hd : 0 < d) (hd' : 0 < d') (h : n * d' ≤ n' * d) : roundHalfEven n d ≤ roundHalfEven n' d' := by
  have a1 := Nat.div_add_mod n d
  have a2 := Nat.mod_lt n hd
  have b1 := Nat.div_add_mod n' d'
  have b2 := Nat.mod_lt n' hd'
  have hq : n / d ≤ n' / d' := by
    rw [Nat.le_div_iff_mul_le hd']
    by_contra hc
    push Not at hc
    have : n' * d < n / d * d' * d := Nat.mul_lt_mul_of_pos_right hc hd
    have h2 : n / d * d * d' ≤ n * d' := Nat.mul_le_mul_right _ (Nat.div_mul_le_self n d)
    have : n / d * d' * d = n / d * d * d' := by ring
    omega
  rcases Nat.lt_or_ge (n/d) (n'/d') with hlt | hge
  · have : roundHalfEven n d ≤ n / d + 1 := by
      unfold roundHalfEven; simp only []; split <;> (try split) <;> (try split) <;> omega
    have : n' / d' ≤ roundHalfEven n' d' := by
      unfold roundHalfEven; simp only []; split <;> (try split) <;> (try split) <;> omega
    omega
  · have he : n / d = n' / d' := by omega
    have hr : (n % d) * d' ≤ (n' % d') * d := by
      have e1 : n * d' = d * (n / d) * d' + (n % d) * d' := by rw [← Nat.add_mul, a1]
      have e2 : n' * d = d' * (n' / d') * d + (n' % d') * d := by rw [← Nat.add_mul, b1]
      have e3 : d * (n / d) * d' = d' * (n' / d') * d := by rw [he]; ring
      omega
    unfold roundHalfEven
    simp only [he]
    generalize n % d = r at *
    generalize n' % d' = r' at *
    generalize n' / d' = q
    by_cases c1 : 2 * r < d
    · simp only [c1, if_true]; split <;> (try split) <;> (try split) <;> omega
    · have k1 : ¬ 2 * r' < d' := by
        intro hc
        have : 2 * r' * d < d' * d := Nat.mul_lt_mul_of_pos_right hc hd
        have h2 : d * d' ≤ 2 * r * d' := Nat.mul_le_mul_right _ (by omega)
        have h3 : 2 * r * d' = 2 * (r * d') := by ring
        have h4 : 2 * r' * d = 2 * (r' * d) := by ring
        have h5 : d * d' = d' * d := by ring
        omega
      by_cases c2 : d < 2 * r
      · have k2 : d' < 2 * r' := by
          by_contra hc
          have : 2 * r' * d ≤ d' * d := Nat.mul_le_mul_right _ (by omega)
          have h2 : d * d' < 2 * r * d' := Nat.mul_lt_mul_of_pos_right c2 hd'
          have h3 : 2 * r * d' = 2 * (r * d') := by ring
          have h4 : 2 * r' * d = 2 * (r' * d) := by ring
          have h5 : d * d' = d' * d := by ring
          omega
        simp only [c1, c2, k1, k2, if_true, if_false]; omega
      · simp only [c1, c2, k1, if_false]; split <;> (try split) <;> omega

theorem f64One_pos : 0 < f64One := by unfold f64One; positivity

end Sys2Proof.Machine
end

