-- ==== Sys2Proof/Laws/Memory.lean ====
section
/-! SUPPORT. What the memory operations do, and that each keeps the canonical form. -/

namespace Sys2Proof.Machine

variable {m : Memory} {a b n : Nat} {v : Byte}

@[simp] theorem unlistedByte_eq : unlistedByte = none := rfl

@[simp] theorem Memory.read_nil : Memory.read [] a = none := rfl

/-- A byte reads as some value exactly where it is listed. -/
theorem Memory.read_eq_none_of_below (h : ∀ c ∈ m, a < c.1) : m.read a = none := by
  induction m with
  | nil => rfl
  | cons c rest ih =>
    have hc : a < c.1 := h c (by simp)
    have hne : ¬ c.1 = a := by omega
    simp only [Memory.read, hne, if_false]
    exact ih fun d hd => h d (by simp [hd])

/-- Read after write, at every address. -/
theorem Memory.read_write (m : Memory) (a b : Nat) (v : Byte) :
    (m.write a v).read b = if a = b then some v else m.read b := by
  induction m with
  | nil => simp [Memory.write, Memory.read]
  | cons c rest ih =>
    simp only [Memory.write]
    split
    · simp [Memory.read]
    · split
      · rename_i h; subst h
        by_cases hb : c.1 = b <;> simp [Memory.read, hb]
      · rename_i h1 h2
        simp only [Memory.read, ih]
        by_cases hb : c.1 = b
        · subst hb; simp [Ne.symm h2]
        · simp [hb]

@[simp] theorem Memory.read_write_same : (m.write a v).read a = some v := by simp [Memory.read_write]

theorem Memory.read_write_other (h : a ≠ b) : (m.write a v).read b = m.read b := by simp [Memory.read_write, h]

theorem Memory.mem_write {c : Host.Cell} (h : c ∈ m.write a v) : c = (a, v) ∨ c ∈ m := by
  induction m with
  | nil => simpa [Memory.write] using h
  | cons d rest ih =>
    simp only [Memory.write] at h
    split at h
    · simpa using h
    · split at h
      · rcases List.mem_cons.1 h with h | h <;> simp [h]
      · rcases List.mem_cons.1 h with h | h
        · simp [h]
        · rcases ih h with h | h <;> simp [h]

/-- A write keeps the canonical form. -/
theorem Memory.write_wf (h : m.wf) : (m.write a v).wf := by
  induction m with
  | nil => simp [Memory.wf, Memory.write]
  | cons c rest ih =>
    have hrest := (List.pairwise_cons.1 h).2
    have hc := (List.pairwise_cons.1 h).1
    simp only [Memory.write]
    split
    · rename_i hlt
      refine List.pairwise_cons.2 ⟨fun d hd => ?_, h⟩
      rcases List.mem_cons.1 hd with hd | hd
      · exact hd ▸ hlt
      · exact lt_trans hlt (hc d hd)
    · split
      · rename_i heq
        exact List.pairwise_cons.2 ⟨fun d hd => by simpa [heq] using hc d hd, hrest⟩
      · rename_i h1 h2
        refine List.pairwise_cons.2 ⟨fun d hd => ?_, ih hrest⟩
        rcases Memory.mem_write hd with hd | hd
        · subst hd; simp only; omega
        · exact hc d hd

theorem Memory.write_below (h : m.below n) (ha : a < n) : (m.write a v).below n := by
  intro c hc
  rcases Memory.mem_write hc with hc | hc
  · exact hc ▸ ha
  · exact h c hc

/-- Canonical memories that read alike are equal. -/
theorem Memory.ext_of_wf {m m' : Memory} (h : m.wf) (h' : m'.wf) (he : ∀ a, m.read a = m'.read a) : m = m' := by
  induction m generalizing m' with
  | nil =>
    cases m' with
    | nil => rfl
    | cons c rest => have := he c.1; simp [Memory.read] at this
  | cons c rest ih =>
    cases m' with
    | nil => have := he c.1; simp [Memory.read] at this
    | cons d rest' =>
      have hc := List.pairwise_cons.1 h
      have hd := List.pairwise_cons.1 h'
      have hcd : c.1 = d.1 := by
        rcases lt_trichotomy c.1 d.1 with hlt | heq | hgt
        · have := he c.1
          rw [Memory.read_eq_none_of_below (m := d :: rest') (fun e hx => by
            rcases List.mem_cons.1 hx with hx | hx
            · exact hx ▸ hlt
            · exact lt_trans hlt (hd.1 e hx))] at this
          simp [Memory.read] at this
        · exact heq
        · have := he d.1
          rw [Memory.read_eq_none_of_below (m := c :: rest) (fun e hx => by
            rcases List.mem_cons.1 hx with hx | hx
            · exact hx ▸ hgt
            · exact lt_trans hgt (hc.1 e hx))] at this
          simp [Memory.read] at this
      have hv : c.2 = d.2 := by have := he c.1; simpa [Memory.read, hcd] using this
      have : rest = rest' := by
        refine ih hc.2 hd.2 fun a => ?_
        by_cases ha : c.1 = a
        · rw [Memory.read_eq_none_of_below (fun e hx => ha ▸ hc.1 e hx),
            Memory.read_eq_none_of_below (fun e hx => by rw [← ha, hcd]; exact hd.1 e hx)]
        · have := he a
          simpa [Memory.read, ha, hcd ▸ ha] using this
      rw [this, Prod.ext hcd hv]

theorem Memory.read_append (m m' : Memory) (a : Nat) :
    Memory.read (m ++ m') a = (m.read a).or (Memory.read m' a) := by
  induction m with
  | nil => rfl
  | cons c rest ih =>
    by_cases h : c.1 = a
    · simp [Memory.read, h]
    · simpa [Memory.read, h] using ih

theorem Memory.read_filter_ge (m : Memory) (n a : Nat) :
    Memory.read (m.filter fun c => n ≤ c.1) a = if n ≤ a then m.read a else none := by
  induction m with
  | nil => simp
  | cons c rest ih =>
    by_cases hn : n ≤ c.1
    · by_cases h : c.1 = a
      · simp [Memory.read, h, h ▸ hn]
      · simpa [Memory.read, hn, h] using ih
    · by_cases h : c.1 = a
      · have : ¬ n ≤ a := h ▸ hn
        simp [hn, ih, this]
      · simp [Memory.read, hn, h, ih]

theorem Memory.read_zeros (l : List Nat) (a : Nat) :
    Memory.read (l.map fun j => (j, 0#8)) a = if a ∈ l then some 0#8 else none := by
  induction l with
  | nil => simp
  | cons x rest ih =>
    by_cases h : x = a
    · simp [Memory.read, h]
    · simp [Memory.read, h, Ne.symm h, ih]

/-- CONFIG's zero fill, at every address (42 R102). -/
theorem Memory.read_zeroFill (m : Memory) (n a : Nat) :
    (m.zeroFill n).read a = if a < n then some 0#8 else m.read a := by
  rw [Memory.zeroFill, Memory.read_append, Memory.read_zeros, Memory.read_filter_ge]
  by_cases h : a < n
  · simp [h]
  · simp [h, not_lt.1 h]

/-- The zero fill keeps the canonical form. -/
theorem Memory.zeroFill_wf (h : m.wf) : (m.zeroFill n).wf := by
  refine List.pairwise_append.2 ⟨?_, h.filter _, ?_⟩
  · rw [List.pairwise_map]
    exact List.pairwise_lt_range
  · intro c hc d hd
    simp only [List.mem_map, List.mem_range] at hc
    obtain ⟨j, hj, rfl⟩ := hc
    have := (List.mem_filter.1 hd).2
    simp only [decide_eq_true_eq] at this
    omega

theorem Memory.zeroFill_below (h : m.below b) (hn : n ≤ b) : (m.zeroFill n).below b := by
  intro c hc
  rcases List.mem_append.1 hc with hc | hc
  · simp only [List.mem_map, List.mem_range] at hc
    obtain ⟨j, hj, rfl⟩ := hc
    exact lt_of_lt_of_le hj hn
  · exact h c (List.mem_filter.1 hc).1

theorem Memory.readBytes_ok_length {l : List Byte} (h : m.readBytes a n = .ok l) : l.length = n := by
  induction n generalizing a l with
  | zero => simp [Memory.readBytes] at h; simp [← h]
  | succ n ih =>
    simp only [Memory.readBytes] at h
    split at h
    · simp at h
    · split at h
      · simp at h
      · rename_i vs hvs
        simp only [Except.ok.injEq] at h
        simp [← h, ih hvs]

/-- `readBytes` answers the bytes `l` exactly where each stands in memory. -/
theorem Memory.readBytes_ok_iff {l : List Byte} :
    m.readBytes a n = .ok l ↔ l.length = n ∧ ∀ j < l.length, m.read (a + j) = l[j]? := by
  induction n generalizing a l with
  | zero => cases l <;> simp [Memory.readBytes]
  | succ n ih =>
    simp only [Memory.readBytes]
    cases hr : m.read a with
    | none =>
      simp only [reduceCtorEq, false_iff, not_and]
      intro hl h
      have := h 0 (by omega)
      simp only [Nat.add_zero, hr] at this
      rw [List.getElem?_eq_getElem (by omega)] at this
      simp at this
    | some v =>
      cases hb : m.readBytes (a + 1) n with
      | error j =>
        simp only [reduceCtorEq, false_iff, not_and]
        intro hl h
        cases l with
        | nil => simp at hl
        | cons w vs =>
          have : m.readBytes (a + 1) n = .ok vs := ih.2 ⟨by simpa using hl, fun j hj => by
            have := h (j + 1) (by simpa using hj)
            rw [← this.trans (List.getElem?_cons_succ)]; congr 1; omega⟩
          simp [hb] at this
      | ok vs =>
        have hvs := ih.1 hb
        simp only [Except.ok.injEq]
        constructor
        · rintro rfl
          refine ⟨by simp [hvs.1], fun j hj => ?_⟩
          cases j with
          | zero => simpa using hr
          | succ j =>
            rw [List.getElem?_cons_succ, ← hvs.2 j (by simpa using hj)]; congr 1; omega
        · rintro ⟨hl, h⟩
          cases l with
          | nil => simp at hl
          | cons w ws =>
            have h0 := h 0 (by simp)
            simp only [Nat.add_zero, hr, List.getElem?_cons_zero, Option.some.injEq] at h0
            have : m.readBytes (a + 1) n = .ok ws := ih.2 ⟨by simpa using hl, fun j hj => by
              have := h (j + 1) (by simpa using hj)
              rw [← this.trans (List.getElem?_cons_succ)]; congr 1; omega⟩
            rw [hb] at this
            simp only [Except.ok.injEq] at this
            rw [h0, this]

/-- `readBytes` stops at the first unwritten byte. -/
theorem Memory.readBytes_error_iff {j : Nat} :
    m.readBytes a n = .error j ↔ a ≤ j ∧ j < a + n ∧ m.read j = none ∧ ∀ i, a ≤ i → i < j → m.read i ≠ none := by
  induction n generalizing a with
  | zero => simp [Memory.readBytes]; omega
  | succ n ih =>
    simp only [Memory.readBytes]
    cases hr : m.read a with
    | none =>
      simp only [Except.error.injEq]
      constructor
      · rintro rfl; exact ⟨le_refl _, by omega, hr, fun i h1 h2 => by omega⟩
      · rintro ⟨h1, -, -, h4⟩
        by_contra hne
        exact h4 a (le_refl _) (by omega) hr
    | some v =>
      have key : m.readBytes (a + 1) n = .error j ↔
          a ≤ j ∧ j < a + (n + 1) ∧ m.read j = none ∧ ∀ i, a ≤ i → i < j → m.read i ≠ none := by
        rw [ih]
        constructor
        · rintro ⟨h1, h2, h3, h4⟩
          refine ⟨by omega, by omega, h3, fun i hi hij => ?_⟩
          by_cases hia : i = a
          · simp [hia, hr]
          · exact h4 i (by omega) hij
        · rintro ⟨h1, h2, h3, h4⟩
          have : j ≠ a := by rintro rfl; simp [hr] at h3
          exact ⟨by omega, by omega, h3, fun i hi hij => h4 i (by omega) hij⟩
      rw [← key]
      cases m.readBytes (a + 1) n <;> simp

end Sys2Proof.Machine
end

