-- ==== Sys2Proof/Laws/Bits.lean ====
section
/-! SUPPORT. The bit-array primitives BitRead and BitSet (20 R53, R54), and the byte count (42 R105). -/

namespace Sys2Proof.Machine

variable {epoch : Nat} {m : Memory} {idx j : Nat}

theorem byte_bit (v : Byte) {k : Nat} (hk : k < 8) : ((v >>> k) &&& 1#8 == 1#8) = v.getLsbD k := by
  have h := hk
  interval_cases k <;> revert v <;> decide

/-- BitRead is the bit of its byte that 20 R53 names. -/
theorem bitRead_eq : bitRead epoch m idx = (bitsByte epoch m (idx / 8)).getLsbD (idx % 8) := by
  rw [bitRead, byte_bit _ (Nat.mod_lt _ (by decide)), Nat.shiftRight_eq_div_pow]

theorem bitsByte_write (a : Nat) (v : Byte) :
    bitsByte epoch (m.write a v) j = if a = j then v else bitsByte epoch m j := by
  unfold bitsByte; rw [Memory.read_write]; split <;> simp

/-- The byte BitSet writes, and every other byte. -/
theorem bitsByte_bitSet :
    bitsByte epoch (bitSet epoch m idx) j =
      if idx / 8 = j then bitsByte epoch m j ||| (1#8 <<< (idx % 8)) else bitsByte epoch m j := by
  rw [bitSet, bitsByte_write, Nat.shiftRight_eq_div_pow]; split
  · rename_i h; rw [← h]
  · rfl

theorem one_shift_bit {k l : Nat} (hl : l < 8) : (1#8 <<< k).getLsbD l = decide (k = l) := by
  simp only [BitVec.getLsbD_shiftLeft, BitVec.getLsbD_one, hl, decide_true, Bool.true_and]
  by_cases h : k = l
  · simp [h]
  · by_cases h2 : l < k
    · simp [h2, h]
    · have : l - k ≠ 0 := by omega
      simp [h, this]

/-- BitSet sets the bit it names and leaves every other bit alone (20 R54). -/
theorem bitRead_bitSet : bitRead epoch (bitSet epoch m idx) j = (bitRead epoch m j || decide (idx = j)) := by
  rw [bitRead_eq, bitRead_eq, bitsByte_bitSet]
  by_cases hb : idx / 8 = j / 8
  · simp only [hb, if_true, BitVec.getLsbD_or, one_shift_bit (Nat.mod_lt j (by decide : 0 < 8))]
    congr 1
    have : (idx % 8 = j % 8) ↔ idx = j := by omega
    simp [this]
  · have : idx ≠ j := by rintro rfl; exact hb rfl
    simp [hb, this]

/-- BitSet touches one byte of the memory. -/
theorem read_bitSet_other (h : idx / 8 ≠ j) : (bitSet epoch m idx).read j = m.read j := by
  rw [bitSet, Nat.shiftRight_eq_div_pow]; exact Memory.read_write_other h

theorem bitSet_wf (h : m.wf) : (bitSet epoch m idx).wf := Memory.write_wf h

theorem bitSet_below {n : Nat} (h : m.below n) (hi : idx / 8 < n) : (bitSet epoch m idx).below n := by
  rw [bitSet, Nat.shiftRight_eq_div_pow]; exact Memory.write_below h hi

/-- A byte that is listed stays listed. -/
theorem read_bitSet_ne_none (h : m.read j ≠ none) : (bitSet epoch m idx).read j ≠ none := by
  rw [bitSet, Memory.read_write]; split <;> simp [h]

/-- The byte count by shift is the exact ceiling (42 R105). -/
theorem byteCount_eq (bc : Word) : byteCount bc = (bc.toNat + 7) / 8 := by
  have hand : (bc &&& 7#32).toNat = bc.toNat % 8 := by
    rw [BitVec.toNat_and]; exact Nat.and_two_pow_sub_one_eq_mod bc.toNat 3
  have hlt := bc.isLt
  unfold byteCount
  by_cases h : bc &&& 7#32 = 0#32
  · have h0 : bc.toNat % 8 = 0 := by rw [← hand, h]; rfl
    simp only [h, ne_eq, not_true_eq_false, if_false, BitVec.toNat_add, BitVec.toNat_ushiftRight, Nat.shiftRight_eq_div_pow]
    simp; omega
  · have h0 : bc.toNat % 8 ≠ 0 := by
      intro h0; apply h; apply BitVec.eq_of_toNat_eq; rw [hand, h0]; rfl
    simp only [h, ne_eq, not_false_eq_true, if_true, BitVec.toNat_add, BitVec.toNat_ushiftRight, Nat.shiftRight_eq_div_pow]
    simp; omega

/-- A zero fill clears every bit below it. -/
theorem bitRead_zeroFill {n : Nat} (h : idx < 8 * n) : bitRead epoch (m.zeroFill n) idx = false := by
  have : idx / 8 < n := by omega
  rw [bitRead_eq, bitsByte, Memory.read_zeroFill, if_pos this]; simp

end Sys2Proof.Machine
end

