-- ==== Sys2Proof/Laws/State.lean ====
section
/-! SUPPORT. One lemma per field per update of State, each true by rfl, so that no proof unfolds a record update. -/

namespace Sys2Proof.Machine

/-! `complete` -/

@[simp] theorem complete_params (s : State) : (complete s).params = s.params := rfl
@[simp] theorem complete_inFlight (s : State) : (complete s).inFlight = none := rfl
@[simp] theorem complete_ready (s : State) : (complete s).ready = s.ready := rfl
@[simp] theorem complete_hit (s : State) : (complete s).hit = s.hit := rfl
@[simp] theorem complete_fault (s : State) : (complete s).fault = s.fault := rfl
@[simp] theorem complete_overrun (s : State) : (complete s).overrun = s.overrun := rfl
@[simp] theorem complete_err (s : State) : (complete s).err = s.err := rfl
@[simp] theorem complete_arg0 (s : State) : (complete s).arg0 = s.arg0 := rfl
@[simp] theorem complete_arg1 (s : State) : (complete s).arg1 = s.arg1 := rfl
@[simp] theorem complete_keyLen (s : State) : (complete s).keyLen = s.keyLen := rfl
@[simp] theorem complete_result (s : State) : (complete s).result = s.result := rfl
@[simp] theorem complete_bitCount (s : State) : (complete s).bitCount = s.bitCount := rfl
@[simp] theorem complete_hashCount (s : State) : (complete s).hashCount = s.hashCount := rfl
@[simp] theorem complete_key (s : State) : (complete s).key = s.key := rfl
@[simp] theorem complete_bits (s : State) : (complete s).bits = s.bits := rfl
@[simp] theorem complete_scratch (s : State) : (complete s).scratch = s.scratch := rfl
@[simp] theorem complete_epoch (s : State) : (complete s).epoch = s.epoch := rfl
@[simp] theorem complete_env (s : State) : (complete s).env = s.env := rfl

/-! `raiseError` -/

@[simp] theorem raiseError_params (code : ErrCode) (s : State) : (raiseError code s).params = s.params := rfl
@[simp] theorem raiseError_inFlight (code : ErrCode) (s : State) : (raiseError code s).inFlight = none := rfl
@[simp] theorem raiseError_ready (code : ErrCode) (s : State) : (raiseError code s).ready = s.ready := rfl
@[simp] theorem raiseError_hit (code : ErrCode) (s : State) : (raiseError code s).hit = s.hit := rfl
@[simp] theorem raiseError_fault (code : ErrCode) (s : State) : (raiseError code s).fault = faultAfter code s.fault := rfl
@[simp] theorem raiseError_overrun (code : ErrCode) (s : State) : (raiseError code s).overrun = s.overrun := rfl
@[simp] theorem raiseError_err (code : ErrCode) (s : State) : (raiseError code s).err = code := rfl
@[simp] theorem raiseError_arg0 (code : ErrCode) (s : State) : (raiseError code s).arg0 = s.arg0 := rfl
@[simp] theorem raiseError_arg1 (code : ErrCode) (s : State) : (raiseError code s).arg1 = s.arg1 := rfl
@[simp] theorem raiseError_keyLen (code : ErrCode) (s : State) : (raiseError code s).keyLen = s.keyLen := rfl
@[simp] theorem raiseError_result (code : ErrCode) (s : State) : (raiseError code s).result = s.result := rfl
@[simp] theorem raiseError_bitCount (code : ErrCode) (s : State) : (raiseError code s).bitCount = s.bitCount := rfl
@[simp] theorem raiseError_hashCount (code : ErrCode) (s : State) : (raiseError code s).hashCount = s.hashCount := rfl
@[simp] theorem raiseError_key (code : ErrCode) (s : State) : (raiseError code s).key = s.key := rfl
@[simp] theorem raiseError_bits (code : ErrCode) (s : State) : (raiseError code s).bits = s.bits := rfl
@[simp] theorem raiseError_scratch (code : ErrCode) (s : State) : (raiseError code s).scratch = s.scratch := rfl
@[simp] theorem raiseError_epoch (code : ErrCode) (s : State) : (raiseError code s).epoch = s.epoch := rfl
@[simp] theorem raiseError_env (code : ErrCode) (s : State) : (raiseError code s).env = s.env := rfl

/-! `deliver` -/

@[simp] theorem deliver_params (r : Bool) (s : State) : (deliver r s).params = s.params := rfl
@[simp] theorem deliver_inFlight (r : Bool) (s : State) : (deliver r s).inFlight = none := rfl
@[simp] theorem deliver_ready (r : Bool) (s : State) : (deliver r s).ready = s.ready := rfl
@[simp] theorem deliver_hit (r : Bool) (s : State) : (deliver r s).hit = r := rfl
@[simp] theorem deliver_fault (r : Bool) (s : State) : (deliver r s).fault = s.fault := rfl
@[simp] theorem deliver_overrun (r : Bool) (s : State) : (deliver r s).overrun = s.overrun := rfl
@[simp] theorem deliver_err (r : Bool) (s : State) : (deliver r s).err = .ok := rfl
@[simp] theorem deliver_arg0 (r : Bool) (s : State) : (deliver r s).arg0 = s.arg0 := rfl
@[simp] theorem deliver_arg1 (r : Bool) (s : State) : (deliver r s).arg1 = s.arg1 := rfl
@[simp] theorem deliver_keyLen (r : Bool) (s : State) : (deliver r s).keyLen = s.keyLen := rfl
@[simp] theorem deliver_result (r : Bool) (s : State) : (deliver r s).result = boolWord r := rfl
@[simp] theorem deliver_bitCount (r : Bool) (s : State) : (deliver r s).bitCount = s.bitCount := rfl
@[simp] theorem deliver_hashCount (r : Bool) (s : State) : (deliver r s).hashCount = s.hashCount := rfl
@[simp] theorem deliver_key (r : Bool) (s : State) : (deliver r s).key = s.key := rfl
@[simp] theorem deliver_bits (r : Bool) (s : State) : (deliver r s).bits = s.bits := rfl
@[simp] theorem deliver_scratch (r : Bool) (s : State) : (deliver r s).scratch = s.scratch := rfl
@[simp] theorem deliver_epoch (r : Bool) (s : State) : (deliver r s).epoch = s.epoch := rfl
@[simp] theorem deliver_env (r : Bool) (s : State) : (deliver r s).env = s.env := rfl

/-! `resetBlock` -/

@[simp] theorem resetBlock_params (s : State) : (resetBlock s).params = s.params := rfl
@[simp] theorem resetBlock_inFlight (s : State) : (resetBlock s).inFlight = none := rfl
@[simp] theorem resetBlock_ready (s : State) : (resetBlock s).ready = false := rfl
@[simp] theorem resetBlock_hit (s : State) : (resetBlock s).hit = false := rfl
@[simp] theorem resetBlock_fault (s : State) : (resetBlock s).fault = false := rfl
@[simp] theorem resetBlock_overrun (s : State) : (resetBlock s).overrun = false := rfl
@[simp] theorem resetBlock_err (s : State) : (resetBlock s).err = .ok := rfl
@[simp] theorem resetBlock_arg0 (s : State) : (resetBlock s).arg0 = 0#32 := rfl
@[simp] theorem resetBlock_arg1 (s : State) : (resetBlock s).arg1 = 0#32 := rfl
@[simp] theorem resetBlock_keyLen (s : State) : (resetBlock s).keyLen = 0#32 := rfl
@[simp] theorem resetBlock_result (s : State) : (resetBlock s).result = 0#32 := rfl
@[simp] theorem resetBlock_bitCount (s : State) : (resetBlock s).bitCount = 0#32 := rfl
@[simp] theorem resetBlock_hashCount (s : State) : (resetBlock s).hashCount = 0#32 := rfl
@[simp] theorem resetBlock_key (s : State) : (resetBlock s).key = [] := rfl
@[simp] theorem resetBlock_bits (s : State) : (resetBlock s).bits = [] := rfl
@[simp] theorem resetBlock_scratch (s : State) : (resetBlock s).scratch = Scratch.reset := rfl
@[simp] theorem resetBlock_epoch (s : State) : (resetBlock s).epoch = s.epoch + 1 := rfl
@[simp] theorem resetBlock_env (s : State) : (resetBlock s).env = s.env := rfl

/-! `takeTurn` -/

@[simp] theorem takeTurn_params (s : State) : (takeTurn s).params = s.params := rfl
@[simp] theorem takeTurn_inFlight (s : State) : (takeTurn s).inFlight = s.inFlight := rfl
@[simp] theorem takeTurn_ready (s : State) : (takeTurn s).ready = s.ready := rfl
@[simp] theorem takeTurn_hit (s : State) : (takeTurn s).hit = s.hit := rfl
@[simp] theorem takeTurn_fault (s : State) : (takeTurn s).fault = s.fault := rfl
@[simp] theorem takeTurn_overrun (s : State) : (takeTurn s).overrun = s.overrun := rfl
@[simp] theorem takeTurn_err (s : State) : (takeTurn s).err = s.err := rfl
@[simp] theorem takeTurn_arg0 (s : State) : (takeTurn s).arg0 = s.arg0 := rfl
@[simp] theorem takeTurn_arg1 (s : State) : (takeTurn s).arg1 = s.arg1 := rfl
@[simp] theorem takeTurn_keyLen (s : State) : (takeTurn s).keyLen = s.keyLen := rfl
@[simp] theorem takeTurn_result (s : State) : (takeTurn s).result = s.result := rfl
@[simp] theorem takeTurn_bitCount (s : State) : (takeTurn s).bitCount = s.bitCount := rfl
@[simp] theorem takeTurn_hashCount (s : State) : (takeTurn s).hashCount = s.hashCount := rfl
@[simp] theorem takeTurn_key (s : State) : (takeTurn s).key = s.key := rfl
@[simp] theorem takeTurn_bits (s : State) : (takeTurn s).bits = s.bits := rfl
@[simp] theorem takeTurn_scratch (s : State) : (takeTurn s).scratch = s.scratch := rfl
@[simp] theorem takeTurn_epoch (s : State) : (takeTurn s).epoch = s.epoch := rfl
@[simp] theorem takeTurn_env (s : State) : (takeTurn s).env = { s.env with schedule := s.env.schedule.tail } := rfl

/-! `withScript` -/

@[simp] theorem withScript_params (s : State) (rest : List Stmt) : (withScript s rest).params = s.params := rfl
@[simp] theorem withScript_inFlight (s : State) (rest : List Stmt) : (withScript s rest).inFlight = s.inFlight := rfl
@[simp] theorem withScript_ready (s : State) (rest : List Stmt) : (withScript s rest).ready = s.ready := rfl
@[simp] theorem withScript_hit (s : State) (rest : List Stmt) : (withScript s rest).hit = s.hit := rfl
@[simp] theorem withScript_fault (s : State) (rest : List Stmt) : (withScript s rest).fault = s.fault := rfl
@[simp] theorem withScript_overrun (s : State) (rest : List Stmt) : (withScript s rest).overrun = s.overrun := rfl
@[simp] theorem withScript_err (s : State) (rest : List Stmt) : (withScript s rest).err = s.err := rfl
@[simp] theorem withScript_arg0 (s : State) (rest : List Stmt) : (withScript s rest).arg0 = s.arg0 := rfl
@[simp] theorem withScript_arg1 (s : State) (rest : List Stmt) : (withScript s rest).arg1 = s.arg1 := rfl
@[simp] theorem withScript_keyLen (s : State) (rest : List Stmt) : (withScript s rest).keyLen = s.keyLen := rfl
@[simp] theorem withScript_result (s : State) (rest : List Stmt) : (withScript s rest).result = s.result := rfl
@[simp] theorem withScript_bitCount (s : State) (rest : List Stmt) : (withScript s rest).bitCount = s.bitCount := rfl
@[simp] theorem withScript_hashCount (s : State) (rest : List Stmt) : (withScript s rest).hashCount = s.hashCount := rfl
@[simp] theorem withScript_key (s : State) (rest : List Stmt) : (withScript s rest).key = s.key := rfl
@[simp] theorem withScript_bits (s : State) (rest : List Stmt) : (withScript s rest).bits = s.bits := rfl
@[simp] theorem withScript_scratch (s : State) (rest : List Stmt) : (withScript s rest).scratch = s.scratch := rfl
@[simp] theorem withScript_epoch (s : State) (rest : List Stmt) : (withScript s rest).epoch = s.epoch := rfl
@[simp] theorem withScript_env (s : State) (rest : List Stmt) : (withScript s rest).env = { s.env with script := rest } := rfl

/-! `record` -/

@[simp] theorem record_params (s : State) (w : Width) (off data : Word) : (record s w off data).params = s.params := rfl
@[simp] theorem record_inFlight (s : State) (w : Width) (off data : Word) : (record s w off data).inFlight = s.inFlight := rfl
@[simp] theorem record_ready (s : State) (w : Width) (off data : Word) : (record s w off data).ready = s.ready := rfl
@[simp] theorem record_hit (s : State) (w : Width) (off data : Word) : (record s w off data).hit = s.hit := rfl
@[simp] theorem record_fault (s : State) (w : Width) (off data : Word) : (record s w off data).fault = s.fault := rfl
@[simp] theorem record_overrun (s : State) (w : Width) (off data : Word) : (record s w off data).overrun = s.overrun := rfl
@[simp] theorem record_err (s : State) (w : Width) (off data : Word) : (record s w off data).err = s.err := rfl
@[simp] theorem record_arg0 (s : State) (w : Width) (off data : Word) : (record s w off data).arg0 = s.arg0 := rfl
@[simp] theorem record_arg1 (s : State) (w : Width) (off data : Word) : (record s w off data).arg1 = s.arg1 := rfl
@[simp] theorem record_keyLen (s : State) (w : Width) (off data : Word) : (record s w off data).keyLen = s.keyLen := rfl
@[simp] theorem record_result (s : State) (w : Width) (off data : Word) : (record s w off data).result = s.result := rfl
@[simp] theorem record_bitCount (s : State) (w : Width) (off data : Word) : (record s w off data).bitCount = s.bitCount := rfl
@[simp] theorem record_hashCount (s : State) (w : Width) (off data : Word) : (record s w off data).hashCount = s.hashCount := rfl
@[simp] theorem record_key (s : State) (w : Width) (off data : Word) : (record s w off data).key = s.key := rfl
@[simp] theorem record_bits (s : State) (w : Width) (off data : Word) : (record s w off data).bits = s.bits := rfl
@[simp] theorem record_scratch (s : State) (w : Width) (off data : Word) : (record s w off data).scratch = s.scratch := rfl
@[simp] theorem record_epoch (s : State) (w : Width) (off data : Word) : (record s w off data).epoch = s.epoch := rfl
@[simp] theorem record_env (s : State) (w : Width) (off data : Word) : (record s w off data).env = { s.env with responses := ⟨off, w, data⟩ :: s.env.responses } := rfl

/-! `placeCommand` -/

@[simp] theorem placeCommand_params (s : State) (c : Word) : (placeCommand s c).params = s.params := rfl
@[simp] theorem placeCommand_inFlight (s : State) (c : Word) : (placeCommand s c).inFlight = some c := rfl
@[simp] theorem placeCommand_ready (s : State) (c : Word) : (placeCommand s c).ready = s.ready := rfl
@[simp] theorem placeCommand_hit (s : State) (c : Word) : (placeCommand s c).hit = s.hit := rfl
@[simp] theorem placeCommand_fault (s : State) (c : Word) : (placeCommand s c).fault = s.fault := rfl
@[simp] theorem placeCommand_overrun (s : State) (c : Word) : (placeCommand s c).overrun = s.overrun := rfl
@[simp] theorem placeCommand_err (s : State) (c : Word) : (placeCommand s c).err = s.err := rfl
@[simp] theorem placeCommand_arg0 (s : State) (c : Word) : (placeCommand s c).arg0 = s.arg0 := rfl
@[simp] theorem placeCommand_arg1 (s : State) (c : Word) : (placeCommand s c).arg1 = s.arg1 := rfl
@[simp] theorem placeCommand_keyLen (s : State) (c : Word) : (placeCommand s c).keyLen = s.keyLen := rfl
@[simp] theorem placeCommand_result (s : State) (c : Word) : (placeCommand s c).result = s.result := rfl
@[simp] theorem placeCommand_bitCount (s : State) (c : Word) : (placeCommand s c).bitCount = s.bitCount := rfl
@[simp] theorem placeCommand_hashCount (s : State) (c : Word) : (placeCommand s c).hashCount = s.hashCount := rfl
@[simp] theorem placeCommand_key (s : State) (c : Word) : (placeCommand s c).key = s.key := rfl
@[simp] theorem placeCommand_bits (s : State) (c : Word) : (placeCommand s c).bits = s.bits := rfl
@[simp] theorem placeCommand_scratch (s : State) (c : Word) : (placeCommand s c).scratch = s.scratch := rfl
@[simp] theorem placeCommand_epoch (s : State) (c : Word) : (placeCommand s c).epoch = s.epoch := rfl
@[simp] theorem placeCommand_env (s : State) (c : Word) : (placeCommand s c).env = { s.env with schedule := .engine :: s.env.schedule } := rfl

/-! `hashEffect` -/

@[simp] theorem hashEffect_params (s : State) (key : List Byte) : (hashEffect s key).params = s.params := rfl
@[simp] theorem hashEffect_inFlight (s : State) (key : List Byte) : (hashEffect s key).inFlight = none := rfl
@[simp] theorem hashEffect_ready (s : State) (key : List Byte) : (hashEffect s key).ready = s.ready := rfl
@[simp] theorem hashEffect_hit (s : State) (key : List Byte) : (hashEffect s key).hit = s.hit := rfl
@[simp] theorem hashEffect_fault (s : State) (key : List Byte) : (hashEffect s key).fault = s.fault := rfl
@[simp] theorem hashEffect_overrun (s : State) (key : List Byte) : (hashEffect s key).overrun = s.overrun := rfl
@[simp] theorem hashEffect_err (s : State) (key : List Byte) : (hashEffect s key).err = .ok := rfl
@[simp] theorem hashEffect_arg0 (s : State) (key : List Byte) : (hashEffect s key).arg0 = s.arg0 := rfl
@[simp] theorem hashEffect_arg1 (s : State) (key : List Byte) : (hashEffect s key).arg1 = s.arg1 := rfl
@[simp] theorem hashEffect_keyLen (s : State) (key : List Byte) : (hashEffect s key).keyLen = s.keyLen := rfl
@[simp] theorem hashEffect_result (s : State) (key : List Byte) : (hashEffect s key).result = (hshRun key s.seed s.scratch).h := rfl
@[simp] theorem hashEffect_bitCount (s : State) (key : List Byte) : (hashEffect s key).bitCount = s.bitCount := rfl
@[simp] theorem hashEffect_hashCount (s : State) (key : List Byte) : (hashEffect s key).hashCount = s.hashCount := rfl
@[simp] theorem hashEffect_key (s : State) (key : List Byte) : (hashEffect s key).key = s.key := rfl
@[simp] theorem hashEffect_bits (s : State) (key : List Byte) : (hashEffect s key).bits = s.bits := rfl
@[simp] theorem hashEffect_scratch (s : State) (key : List Byte) : (hashEffect s key).scratch = hshRun key s.seed s.scratch := rfl
@[simp] theorem hashEffect_epoch (s : State) (key : List Byte) : (hashEffect s key).epoch = s.epoch := rfl
@[simp] theorem hashEffect_env (s : State) (key : List Byte) : (hashEffect s key).env = s.env := rfl

/-! `configEffect` -/

@[simp] theorem configEffect_params (s : State) : (configEffect s).params = s.params := rfl
@[simp] theorem configEffect_inFlight (s : State) : (configEffect s).inFlight = none := rfl
@[simp] theorem configEffect_ready (s : State) : (configEffect s).ready = true := rfl
@[simp] theorem configEffect_hit (s : State) : (configEffect s).hit = s.hit := rfl
@[simp] theorem configEffect_fault (s : State) : (configEffect s).fault = s.fault := rfl
@[simp] theorem configEffect_overrun (s : State) : (configEffect s).overrun = s.overrun := rfl
@[simp] theorem configEffect_err (s : State) : (configEffect s).err = .ok := rfl
@[simp] theorem configEffect_arg0 (s : State) : (configEffect s).arg0 = s.arg0 := rfl
@[simp] theorem configEffect_arg1 (s : State) : (configEffect s).arg1 = s.arg1 := rfl
@[simp] theorem configEffect_keyLen (s : State) : (configEffect s).keyLen = s.keyLen := rfl
@[simp] theorem configEffect_result (s : State) : (configEffect s).result = s.result := rfl
@[simp] theorem configEffect_bitCount (s : State) : (configEffect s).bitCount = s.wantedBits := rfl
@[simp] theorem configEffect_hashCount (s : State) : (configEffect s).hashCount = s.wantedHashes := rfl
@[simp] theorem configEffect_key (s : State) : (configEffect s).key = s.key := rfl
@[simp] theorem configEffect_bits (s : State) : (configEffect s).bits = s.bits.zeroFill (byteCount s.wantedBits) := rfl
@[simp] theorem configEffect_scratch (s : State) : (configEffect s).scratch = s.scratch := rfl
@[simp] theorem configEffect_epoch (s : State) : (configEffect s).epoch = s.epoch := rfl
@[simp] theorem configEffect_env (s : State) : (configEffect s).env = s.env := rfl

/-! The hidden registers -/

@[simp] theorem Scratch.setHsh_h (r : Scratch) (h k : Word) (pos : Nat) : (r.setHsh h k pos).h = h := rfl
@[simp] theorem Scratch.setHsh_k (r : Scratch) (h k : Word) (pos : Nat) : (r.setHsh h k pos).k = k := rfl
@[simp] theorem Scratch.setHsh_pos (r : Scratch) (h k : Word) (pos : Nat) : (r.setHsh h k pos).pos = pos := rfl
@[simp] theorem Scratch.setHsh_a (r : Scratch) (h k : Word) (pos : Nat) : (r.setHsh h k pos).a = r.a := rfl
@[simp] theorem Scratch.setHsh_b (r : Scratch) (h k : Word) (pos : Nat) : (r.setHsh h k pos).b = r.b := rfl
@[simp] theorem Scratch.setHsh_i (r : Scratch) (h k : Word) (pos : Nat) : (r.setHsh h k pos).i = r.i := rfl
@[simp] theorem Scratch.setHsh_hits (r : Scratch) (h k : Word) (pos : Nat) : (r.setHsh h k pos).hits = r.hits := rfl
@[simp] theorem Scratch.setHsh_idx (r : Scratch) (h k : Word) (pos : Nat) : (r.setHsh h k pos).idx = r.idx := rfl
@[simp] theorem Scratch.setPrb_h (r : Scratch) (a b : Word) (i : Nat) : (r.setPrb a b i).h = r.h := rfl
@[simp] theorem Scratch.setPrb_k (r : Scratch) (a b : Word) (i : Nat) : (r.setPrb a b i).k = r.k := rfl
@[simp] theorem Scratch.setPrb_pos (r : Scratch) (a b : Word) (i : Nat) : (r.setPrb a b i).pos = r.pos := rfl
@[simp] theorem Scratch.setPrb_a (r : Scratch) (a b : Word) (i : Nat) : (r.setPrb a b i).a = a := rfl
@[simp] theorem Scratch.setPrb_b (r : Scratch) (a b : Word) (i : Nat) : (r.setPrb a b i).b = b := rfl
@[simp] theorem Scratch.setPrb_i (r : Scratch) (a b : Word) (i : Nat) : (r.setPrb a b i).i = i := rfl
@[simp] theorem Scratch.setPrb_hits (r : Scratch) (a b : Word) (i : Nat) : (r.setPrb a b i).hits = r.hits := rfl
@[simp] theorem Scratch.setPrb_idx (r : Scratch) (a b : Word) (i : Nat) : (r.setPrb a b i).idx = r.idx := rfl
@[simp] theorem Scratch.setBar_h (r : Scratch) (hits idx : Nat) : (r.setBar hits idx).h = r.h := rfl
@[simp] theorem Scratch.setBar_k (r : Scratch) (hits idx : Nat) : (r.setBar hits idx).k = r.k := rfl
@[simp] theorem Scratch.setBar_pos (r : Scratch) (hits idx : Nat) : (r.setBar hits idx).pos = r.pos := rfl
@[simp] theorem Scratch.setBar_a (r : Scratch) (hits idx : Nat) : (r.setBar hits idx).a = r.a := rfl
@[simp] theorem Scratch.setBar_b (r : Scratch) (hits idx : Nat) : (r.setBar hits idx).b = r.b := rfl
@[simp] theorem Scratch.setBar_i (r : Scratch) (hits idx : Nat) : (r.setBar hits idx).i = r.i := rfl
@[simp] theorem Scratch.setBar_hits (r : Scratch) (hits idx : Nat) : (r.setBar hits idx).hits = hits := rfl
@[simp] theorem Scratch.setBar_idx (r : Scratch) (hits idx : Nat) : (r.setBar hits idx).idx = idx := rfl

/-! Derived views -/

@[simp] theorem complete_busy (s : State) : (complete s).busy = false := rfl
@[simp] theorem raiseError_busy (code : ErrCode) (s : State) : (raiseError code s).busy = false := rfl
@[simp] theorem resetBlock_busy (s : State) : (resetBlock s).busy = false := rfl
@[simp] theorem takeTurn_busy (s : State) : (takeTurn s).busy = s.busy := rfl
@[simp] theorem withScript_busy (s : State) (rest : List Stmt) : (withScript s rest).busy = s.busy := rfl
@[simp] theorem placeCommand_busy (s : State) (c : Word) : (placeCommand s c).busy = true := rfl

end Sys2Proof.Machine
end

