-- ==== Sys2Proof/Laws/Hash.lean ====
section
/-! SUPPORT. What HSH's pipeline leaves in its registers (41 R87). -/

namespace Sys2Proof.Machine

variable {key : List Byte} {seed : Word} {r : Scratch}

@[simp] theorem hshInit_a (n : Nat) : (hshInit seed n r).a = r.a := by rw [hshInit]; exact Scratch.setHsh_a _ _ _ _
@[simp] theorem hshInit_b (n : Nat) : (hshInit seed n r).b = r.b := by rw [hshInit]; exact Scratch.setHsh_b _ _ _ _
@[simp] theorem hshInit_i (n : Nat) : (hshInit seed n r).i = r.i := by rw [hshInit]; exact Scratch.setHsh_i _ _ _ _
@[simp] theorem hshInit_hits (n : Nat) : (hshInit seed n r).hits = r.hits := by rw [hshInit]; exact Scratch.setHsh_hits _ _ _ _
@[simp] theorem hshInit_idx (n : Nat) : (hshInit seed n r).idx = r.idx := by rw [hshInit]; exact Scratch.setHsh_idx _ _ _ _
@[simp] theorem hshBlock_a : (hshBlock key r).a = r.a := by rw [hshBlock]; exact Scratch.setHsh_a _ _ _ _
@[simp] theorem hshBlock_b : (hshBlock key r).b = r.b := by rw [hshBlock]; exact Scratch.setHsh_b _ _ _ _
@[simp] theorem hshBlock_i : (hshBlock key r).i = r.i := by rw [hshBlock]; exact Scratch.setHsh_i _ _ _ _
@[simp] theorem hshBlock_hits : (hshBlock key r).hits = r.hits := by rw [hshBlock]; exact Scratch.setHsh_hits _ _ _ _
@[simp] theorem hshBlock_idx : (hshBlock key r).idx = r.idx := by rw [hshBlock]; exact Scratch.setHsh_idx _ _ _ _
@[simp] theorem hshFinish_a : (hshFinish key r).a = r.a := by rw [hshFinish]; exact Scratch.setHsh_a _ _ _ _
@[simp] theorem hshFinish_b : (hshFinish key r).b = r.b := by rw [hshFinish]; exact Scratch.setHsh_b _ _ _ _
@[simp] theorem hshFinish_i : (hshFinish key r).i = r.i := by rw [hshFinish]; exact Scratch.setHsh_i _ _ _ _
@[simp] theorem hshFinish_hits : (hshFinish key r).hits = r.hits := by rw [hshFinish]; exact Scratch.setHsh_hits _ _ _ _
@[simp] theorem hshFinish_idx : (hshFinish key r).idx = r.idx := by rw [hshFinish]; exact Scratch.setHsh_idx _ _ _ _
@[simp] theorem hshInit_h (n : Nat) : (hshInit seed n r).h = hashInit seed n := by
  rw [hshInit]; exact Scratch.setHsh_h _ _ _ _
@[simp] theorem hshInit_pos (n : Nat) : (hshInit seed n r).pos = 0 := by rw [hshInit]; exact Scratch.setHsh_pos _ _ _ _
@[simp] theorem hshBlock_h : (hshBlock key r).h = mixWord r.h (scrambleWord (packWord key r.pos)) := by
  rw [hshBlock]; exact Scratch.setHsh_h _ _ _ _
@[simp] theorem hshBlock_pos : (hshBlock key r).pos = r.pos + 4 := by rw [hshBlock]; exact Scratch.setHsh_pos _ _ _ _
@[simp] theorem hshFinish_h : (hshFinish key r).h = hashFmix (hashTail key r.pos (key.length % 4) r.h) := by
  rw [hshFinish]; exact Scratch.setHsh_h _ _ _ _

/-- HSH writes h, k and pos alone. -/
theorem hshBlock_iterate_other (n : Nat) :
    ((hshBlock key)^[n] r).a = r.a ∧ ((hshBlock key)^[n] r).b = r.b ∧ ((hshBlock key)^[n] r).i = r.i ∧
      ((hshBlock key)^[n] r).hits = r.hits ∧ ((hshBlock key)^[n] r).idx = r.idx := by
  induction n with
  | zero => simp
  | succ n ih => simp only [Function.iterate_succ_apply', hshBlock_a, hshBlock_b, hshBlock_i, hshBlock_hits, hshBlock_idx, ih, and_self]

/-- After `n` block steps from pos = 0, h holds the first `n` blocks mixed in, and pos stands behind them. -/
theorem hshBlock_iterate (n : Nat) (h0 : r.pos = 0) :
    ((hshBlock key)^[n] r).h = hashBlocks key r.h n ∧ ((hshBlock key)^[n] r).pos = 4 * n := by
  induction n with
  | zero => simp [hashBlocks, h0]
  | succ n ih =>
    rw [Function.iterate_succ_apply']
    simp only [hshBlock_h, hshBlock_pos, hashBlocks, ih.1, ih.2, true_and]
    omega

@[simp] theorem hshRun_a : (hshRun key seed r).a = r.a := by
  rw [hshRun, hshFinish_a, (hshBlock_iterate_other _).1, hshInit_a]
@[simp] theorem hshRun_b : (hshRun key seed r).b = r.b := by
  rw [hshRun, hshFinish_b, (hshBlock_iterate_other _).2.1, hshInit_b]
@[simp] theorem hshRun_i : (hshRun key seed r).i = r.i := by
  rw [hshRun, hshFinish_i, (hshBlock_iterate_other _).2.2.1, hshInit_i]
@[simp] theorem hshRun_hits : (hshRun key seed r).hits = r.hits := by
  rw [hshRun, hshFinish_hits, (hshBlock_iterate_other _).2.2.2.1, hshInit_hits]
@[simp] theorem hshRun_idx : (hshRun key seed r).idx = r.idx := by
  rw [hshRun, hshFinish_idx, (hshBlock_iterate_other _).2.2.2.2, hshInit_idx]

/-- HSH puts out H(key, seed), whatever its registers held (41 R86, R87). -/
theorem hshRun_h : (hshRun key seed r).h = murmur key seed := by
  have hb := hshBlock_iterate (key := key) (r := hshInit seed key.length r) (key.length / 4) (by simp)
  rw [hshRun, hshFinish_h, hb.1, hb.2, hshInit_h]; rfl

/-- Every bit of a block word is a bit of the key byte it stands in (41 R82). -/
theorem packWord_getLsbD (key : List Byte) (t k : Nat) (hk : k < 32) :
    (packWord key t).getLsbD k = (key.getD (t + k / 8) 0#8).getLsbD (k % 8) := by
  unfold packWord keyByte
  simp only [BitVec.getLsbD_or, BitVec.getLsbD_shiftLeft, BitVec.getLsbD_setWidth]
  rcases Nat.lt_or_ge k 8 with h | h
  · have e1 : k / 8 = 0 := by omega
    have e2 : k % 8 = k := by omega
    simp [e1, e2, hk, h, show k < 16 by omega, show k < 24 by omega]
  rcases Nat.lt_or_ge k 16 with h' | h'
  · have e1 : k / 8 = 1 := by omega
    have e2 : k % 8 = k - 8 := by omega
    simp [e1, e2, hk, h', show ¬ k < 8 by omega, show k < 24 by omega, show k - 8 < 32 by omega,
      BitVec.getLsbD_of_ge (key[t]?.getD 0#8) k h]
  rcases Nat.lt_or_ge k 24 with h'' | h''
  · have e1 : k / 8 = 2 := by omega
    have e2 : k % 8 = k - 16 := by omega
    simp [e1, e2, hk, h'', show ¬ k < 8 by omega, show ¬ k < 16 by omega, show k - 8 < 32 by omega,
      show k - 16 < 32 by omega, BitVec.getLsbD_of_ge (key[t]?.getD 0#8) k h,
      BitVec.getLsbD_of_ge (key[t+1]?.getD 0#8) (k-8) (by omega)]
  · have e1 : k / 8 = 3 := by omega
    have e2 : k % 8 = k - 24 := by omega
    simp [e1, e2, hk, show ¬ k < 8 by omega, show ¬ k < 16 by omega, show ¬ k < 24 by omega,
      show k - 8 < 32 by omega, show k - 16 < 32 by omega, show k - 24 < 32 by omega,
      BitVec.getLsbD_of_ge (key[t]?.getD 0#8) k h, BitVec.getLsbD_of_ge (key[t+1]?.getD 0#8) (k-8) (by omega),
      BitVec.getLsbD_of_ge (key[t+2]?.getD 0#8) (k-16) (by omega)]

end Sys2Proof.Machine
end

