-- ==== Sys2Proof/Laws/Probe.lean ====
section
/-! SUPPORT. What CHECK's and ADD's probe loops do, for any a and b in PRB's registers. -/

namespace Sys2Proof.Machine

variable {epoch bc : Nat} {bits : Memory} {r : Scratch}

@[simp] theorem prbNext_a : (prbNext bc r).a = r.a := rfl
@[simp] theorem prbNext_b : (prbNext bc r).b = r.b := rfl
@[simp] theorem prbNext_i : (prbNext bc r).i = r.i + 1 := rfl
@[simp] theorem prbNext_hits : (prbNext bc r).hits = r.hits := rfl
@[simp] theorem prbNext_idx : (prbNext bc r).idx = probeIndex r.a r.b bc r.i := rfl

@[simp] theorem countHit_a : (countHit r).a = r.a := rfl
@[simp] theorem countHit_b : (countHit r).b = r.b := rfl
@[simp] theorem countHit_i : (countHit r).i = r.i := rfl
@[simp] theorem countHit_hits : (countHit r).hits = r.hits + 1 := rfl
@[simp] theorem countHit_idx : (countHit r).idx = r.idx := rfl

/-- PRB's first hash is H(key, SEED_A) (43 R121). -/
theorem prbStart_a {key : List Byte} : (prbStart key r).a = murmur key 0x9747b28c#32 := by
  rw [prbStart, Scratch.setBar_a, Scratch.setPrb_a, hshRun_a, Scratch.setPrb_a, hshRun_h]; rfl

/-- PRB's second hash is H(key, a) (43 R122). -/
theorem prbStart_b {key : List Byte} : (prbStart key r).b = murmur key (murmur key 0x9747b28c#32) := by
  rw [prbStart, Scratch.setBar_b, Scratch.setPrb_b, hshRun_h, hshRun_h]; rfl

theorem probeIndex_lt {a b : Word} {i : Nat} (h : 0 < bc) : probeIndex a b bc i < bc := Nat.mod_lt _ h

/-- One probe of CHECK: a and b stay, i counts on, a set bit is a hit. -/
theorem checkProbe_spec :
    (checkProbe epoch bits bc r).a = r.a ∧ (checkProbe epoch bits bc r).b = r.b ∧
      (checkProbe epoch bits bc r).i = r.i + 1 ∧
      (checkProbe epoch bits bc r).hits = r.hits + (bitRead epoch bits (probeIndex r.a r.b bc r.i)).toNat := by
  unfold checkProbe
  simp only [prbNext_idx]
  by_cases h : bitRead epoch bits (probeIndex r.a r.b bc r.i) = true <;> simp [h]

/-- `n` probes of CHECK: how many of the `n` bits from probe i on are set. -/
theorem checkProbe_iterate (n : Nat) :
    ((checkProbe epoch bits bc)^[n] r).a = r.a ∧ ((checkProbe epoch bits bc)^[n] r).b = r.b ∧
      ((checkProbe epoch bits bc)^[n] r).i = r.i + n ∧
      ((checkProbe epoch bits bc)^[n] r).hits =
        r.hits + ((List.range n).countP fun t => bitRead epoch bits (probeIndex r.a r.b bc (r.i + t))) := by
  induction n with
  | zero => simp
  | succ n ih =>
    rw [Function.iterate_succ_apply']
    obtain ⟨ha, hb, hi, hh⟩ := ih
    obtain ⟨ca, cb, ci, ch⟩ := checkProbe_spec (epoch := epoch) (bits := bits) (bc := bc)
      (r := (checkProbe epoch bits bc)^[n] r)
    refine ⟨ca.trans ha, cb.trans hb, by rw [ci, hi]; omega, ?_⟩
    rw [ch, hh, ha, hb, hi, List.range_succ, List.countP_append]
    cases h : bitRead epoch bits (probeIndex r.a r.b bc (r.i + n)) <;> simp [h]; omega

/-- One probe of ADD: the bit it names is set, and was a hit where it was set before. -/
theorem addProbe_spec (x : Memory × Scratch) :
    let idx := probeIndex x.2.a x.2.b bc x.2.i
    (addProbe epoch bc x).2.a = x.2.a ∧ (addProbe epoch bc x).2.b = x.2.b ∧
      (addProbe epoch bc x).2.i = x.2.i + 1 ∧
      (addProbe epoch bc x).2.hits = x.2.hits + (bitRead epoch x.1 idx).toNat ∧
      (addProbe epoch bc x).1 = (if bitRead epoch x.1 idx then x.1 else bitSet epoch x.1 idx) := by
  unfold addProbe testSet
  simp only [prbNext_idx]
  by_cases h : bitRead epoch x.1 (probeIndex x.2.a x.2.b bc x.2.i) = true <;> simp [h]

/-- TESTSET leaves the array with its bit set, whatever it was. -/
theorem bitRead_testSet (m : Memory) (idx j : Nat) :
    bitRead epoch (if bitRead epoch m idx then m else bitSet epoch m idx) j = (bitRead epoch m j || decide (idx = j)) := by
  split
  · rename_i h
    by_cases hij : idx = j
    · subst hij; simp [h]
    · simp [hij]
  · exact bitRead_bitSet

/-- `n` probes of ADD: which bits are set at the end, which bytes are touched, and when every probe was a hit. -/
theorem addProbe_iterate (n : Nat) (x : Memory × Scratch) :
    let y := (addProbe epoch bc)^[n] x
    let idx := fun t => probeIndex x.2.a x.2.b bc (x.2.i + t)
    y.2.a = x.2.a ∧ y.2.b = x.2.b ∧ y.2.i = x.2.i + n ∧
      (∀ j, bitRead epoch y.1 j = (bitRead epoch x.1 j || decide (∃ t < n, idx t = j))) ∧
      (∀ j, (∀ t < n, idx t / 8 ≠ j) → y.1.read j = x.1.read j) ∧
      y.2.hits ≤ x.2.hits + n ∧
      (y.2.hits = x.2.hits + n ↔ ∀ t < n, bitRead epoch x.1 (idx t) = true) ∧
      ((∀ t < n, bitRead epoch x.1 (idx t) = true) → y.1 = x.1) := by
  induction n with
  | zero => simp
  | succ n ih =>
    simp only [Function.iterate_succ_apply']
    obtain ⟨ha, hb, hi, hbit, hread, hle, hhit, hsame⟩ := ih
    obtain ⟨ca, cb, ci, ch, cm⟩ := addProbe_spec (epoch := epoch) (bc := bc) ((addProbe epoch bc)^[n] x)
    rw [ha, hb, hi] at ch cm
    refine ⟨ca.trans ha, cb.trans hb, by rw [ci, hi]; omega, fun j => ?_, fun j hj => ?_, ?_, ?_, fun hall => ?_⟩
    · rw [cm, bitRead_testSet, hbit, Bool.or_assoc]
      congr 1
      rw [Bool.eq_iff_iff]
      simp only [Bool.or_eq_true, decide_eq_true_eq]
      constructor
      · rintro (⟨t, ht, h⟩ | h)
        · exact ⟨t, by omega, h⟩
        · exact ⟨n, by omega, h⟩
      · rintro ⟨t, ht, h⟩
        by_cases htn : t = n
        · right; rw [← htn]; exact h
        · left; exact ⟨t, by omega, h⟩
    · rw [cm, ← hread j fun t ht => hj t (by omega)]
      split
      · rfl
      · exact read_bitSet_other (hj n (by omega))
    · rw [ch]; have := Bool.toNat_le (bitRead epoch ((addProbe epoch bc)^[n] x).1 (probeIndex x.2.a x.2.b bc (x.2.i + n))); omega
    · rw [ch]
      constructor
      · intro h
        have hb1 := Bool.toNat_le (bitRead epoch ((addProbe epoch bc)^[n] x).1 (probeIndex x.2.a x.2.b bc (x.2.i + n)))
        have hn : ((addProbe epoch bc)^[n] x).2.hits = x.2.hits + n := by omega
        have hall := hhit.1 hn
        intro t ht
        by_cases htn : t = n
        · subst htn
          rw [hsame hall] at h
          cases hv : bitRead epoch x.1 (probeIndex x.2.a x.2.b bc (x.2.i + t))
          · rw [hv] at h; simp at h; omega
          · rfl
        · exact hall t (by omega)
      · intro hall
        have hall' : ∀ t < n, bitRead epoch x.1 (probeIndex x.2.a x.2.b bc (x.2.i + t)) = true :=
          fun t ht => hall t (by omega)
        rw [hsame hall', hhit.2 hall', hall n (by omega)]; simp; omega
    · have hall' : ∀ t < n, bitRead epoch x.1 (probeIndex x.2.a x.2.b bc (x.2.i + t)) = true :=
          fun t ht => hall t (by omega)
      rw [cm, hsame hall', if_pos (hall n (by omega))]

/-- The array and the hit count of `n` ADD probes do not depend on what idx holds. -/
theorem addProbe_iterate_congr {x y : Memory × Scratch} (hm : x.1 = y.1) (ha : x.2.a = y.2.a) (hb : x.2.b = y.2.b)
    (hi : x.2.i = y.2.i) (hh : x.2.hits = y.2.hits) (n : Nat) :
    ((addProbe epoch bc)^[n] x).1 = ((addProbe epoch bc)^[n] y).1 ∧
      ((addProbe epoch bc)^[n] x).2.a = ((addProbe epoch bc)^[n] y).2.a ∧
      ((addProbe epoch bc)^[n] x).2.b = ((addProbe epoch bc)^[n] y).2.b ∧
      ((addProbe epoch bc)^[n] x).2.i = ((addProbe epoch bc)^[n] y).2.i ∧
      ((addProbe epoch bc)^[n] x).2.hits = ((addProbe epoch bc)^[n] y).2.hits := by
  induction n with
  | zero => exact ⟨hm, ha, hb, hi, hh⟩
  | succ n ih =>
    rw [Function.iterate_succ_apply', Function.iterate_succ_apply']
    obtain ⟨h1, h2, h3, h4, h5⟩ := ih
    obtain ⟨x1, x2, x3, x4, x5⟩ := addProbe_spec (epoch := epoch) (bc := bc) ((addProbe epoch bc)^[n] x)
    obtain ⟨y1, y2, y3, y4, y5⟩ := addProbe_spec (epoch := epoch) (bc := bc) ((addProbe epoch bc)^[n] y)
    refine ⟨?_, by rw [x1, y1, h2], by rw [x2, y2, h3], by rw [x3, y3, h4], ?_⟩
    · rw [x5, y5, h1, h2, h3, h4]
    · rw [x4, y4, h1, h2, h3, h4, h5]

/-- ADD's probes keep what an invariant of the array needs: the canonical form, its bounds, and what is listed. -/
theorem addProbe_iterate_keeps (n : Nat) (x : Memory × Scratch) (hbc : 0 < bc) :
    let y := (addProbe epoch bc)^[n] x
    (x.1.wf → y.1.wf) ∧ (∀ c, (bc + 7) / 8 ≤ c → x.1.below c → y.1.below c) ∧
      (∀ j, x.1.read j ≠ none → y.1.read j ≠ none) := by
  induction n with
  | zero => simp
  | succ n ih =>
    simp only [Function.iterate_succ_apply']
    obtain ⟨hw, hl, hr⟩ := ih
    obtain ⟨-, -, -, -, cm⟩ := addProbe_spec (epoch := epoch) (bc := bc) ((addProbe epoch bc)^[n] x)
    rw [cm]
    refine ⟨fun h => ?_, fun c hc h => ?_, fun j h => ?_⟩
    · split
      · exact hw h
      · exact bitSet_wf (hw h)
    · split
      · exact hl c hc h
      · refine bitSet_below (hl c hc h) ?_
        have := probeIndex_lt (a := ((addProbe epoch bc)^[n] x).2.a) (b := ((addProbe epoch bc)^[n] x).2.b)
          (i := ((addProbe epoch bc)^[n] x).2.i) hbc
        omega
    · split
      · exact hr j h
      · exact read_bitSet_ne_none (hr j h)

end Sys2Proof.Machine
end

