-- ==== Sys2Proof/Laws/Commands.lean ====
section
/-! SUPPORT. What each command can answer: one inversion lemma per shared operation and per command, which callers cite
instead of unfolding the meanings. -/

namespace Sys2Proof.Machine

variable {s t : State} {key : List Byte}

/-- The key operand is read exactly where `KeyIs` says it stands. -/
theorem keyBytes_ok_iff : s.keyBytes = .ok key ↔ KeyIs s key := by
  simp only [State.keyBytes, Memory.readBytes_ok_iff, KeyIs, Nat.zero_add, eq_comm (a := key.length)]

/-- The key operand cannot be read exactly where a byte of it was never written, and `j` is the first such byte. -/
theorem keyBytes_error_iff {j : Nat} :
    s.keyBytes = .error j ↔ j < s.keyLen.toNat ∧ s.key.read j = none ∧ ∀ i < j, s.key.read i ≠ none := by
  simp [State.keyBytes, Memory.readBytes_error_iff]

theorem keyOverlong_iff : s.keyOverlong = true ↔ ¬ KeyFits s := by
  simp [State.keyOverlong]

theorem keyOverlong_eq_false (h : KeyFits s) : s.keyOverlong = false := by
  simpa [State.keyOverlong] using h

/-- Two keys of one state are one key. -/
theorem KeyIs.unique {key' : List Byte} (h : KeyIs s key) (h' : KeyIs s key') : key = key' := by
  have := (keyBytes_ok_iff.2 h).symm.trans (keyBytes_ok_iff.2 h')
  exact Except.ok.inj this

/-- `withKey` where the key fits and every byte of it stands in the buffer. -/
theorem withKey_of_keyIs {effect : List Byte → Host.Outcome State Fault Refusal} (hf : KeyFits s) (hk : KeyIs s key) :
    withKey s effect = effect key := by
  simp [withKey, keyOverlong_eq_false hf, keyBytes_ok_iff.2 hk]

theorem withKey_of_overlong {effect : List Byte → Host.Outcome State Fault Refusal} (hf : ¬ KeyFits s) :
    withKey s effect = .next (raiseError .keyTooLong s) := by
  simp [withKey, keyOverlong_iff.2 hf]

/-- `withKey` answers what it does about an overlong key, or what its effect does about the key. -/
theorem withKey_cases {effect : List Byte → Host.Outcome State Fault Refusal} (h : withKey s effect = .next t) :
    (¬ KeyFits s ∧ t = raiseError .keyTooLong s) ∨ ∃ key, KeyFits s ∧ KeyIs s key ∧ effect key = .next t := by
  by_cases hf : KeyFits s
  · right
    simp only [withKey, keyOverlong_eq_false hf, Bool.false_eq_true, if_false] at h
    cases hk : s.keyBytes with
    | error j => simp [hk] at h
    | ok key => exact ⟨key, hf, keyBytes_ok_iff.1 hk, by simpa [hk] using h⟩
  · left
    rw [withKey_of_overlong hf] at h
    exact ⟨hf, by injection h with h; exact h.symm⟩

/-- Everything HASH can answer (41 R88). -/
theorem execHash_cases (h : execHash s = .next t) :
    (¬ KeyFits s ∧ t = raiseError .keyTooLong s) ∨ ∃ key, KeyFits s ∧ KeyIs s key ∧ t = hashEffect s key := by
  rcases withKey_cases h with h | ⟨key, hf, hk, he⟩
  · exact .inl h
  · exact .inr ⟨key, hf, hk, by injection he with he; exact he.symm⟩

/-- Everything CONFIG can answer (42 R100). -/
theorem execConfig_cases (h : execConfig s = .next t) :
    (configAccepts s = true ∧ t = configEffect s) ∨ (configAccepts s = false ∧ t = raiseError .invalidParams s) := by
  unfold execConfig at h
  split at h <;> injection h with h
  · exact .inl ⟨‹_›, h.symm⟩
  · exact .inr ⟨by simpa using ‹¬ configAccepts s = true›, h.symm⟩

/-- Everything CHECK and ADD can answer, whatever their effect (44 R136, R138). -/
theorem withFilterAndKey_cases {effect : List Byte → State} (h : withFilterAndKey s effect = .next t) :
    (s.ready = false ∧ t = raiseError .notReady s) ∨
      (s.ready = true ∧ ¬ KeyFits s ∧ t = raiseError .keyTooLong s) ∨
        ∃ key, s.ready = true ∧ KeyFits s ∧ KeyIs s key ∧ s.bitCount.toNat ≠ 0 ∧ t = effect key := by
  unfold withFilterAndKey at h
  split at h
  · rename_i hr
    rcases withKey_cases h with ⟨hf, ht⟩ | ⟨key, hf, hk, he⟩
    · exact .inr (.inl ⟨hr, hf, ht⟩)
    · split at he
      · cases he
      · injection he with he
        exact .inr (.inr ⟨key, hr, hf, hk, ‹_›, he.symm⟩)
  · injection h with h
    exact .inl ⟨by simpa using ‹¬ s.ready = true›, h.symm⟩

theorem withFilterAndKey_of_keyIs {effect : List Byte → State} (hr : s.ready = true) (hf : KeyFits s) (hk : KeyIs s key)
    (hb : s.bitCount.toNat ≠ 0) : withFilterAndKey s effect = .next (effect key) := by
  rw [withFilterAndKey, if_pos hr, withKey_of_keyIs hf hk, if_neg hb]

/-- Two effects on one state and key: CHECK and ADD take the same branch. -/
theorem withFilterAndKey_notReady {effect : List Byte → State} (hr : s.ready = false) :
    withFilterAndKey s effect = .next (raiseError .notReady s) := by
  simp [withFilterAndKey, hr]

theorem withFilterAndKey_overlong {effect : List Byte → State} (hr : s.ready = true) (hf : ¬ KeyFits s) :
    withFilterAndKey s effect = .next (raiseError .keyTooLong s) := by
  rw [withFilterAndKey, if_pos hr, withKey_of_overlong hf]

theorem prbStart_probeA {r : Scratch} : (prbStart key r).a = probeA key := prbStart_a

theorem prbStart_probeB {r : Scratch} : (prbStart key r).b = probeB key := prbStart_b

/-- What a HASH leaves (41 R88): every field but RESULT, ERR, BUSY and the hidden registers is as before. -/
theorem hashEffect_eq (s : State) (key : List Byte) :
    ∃ r, hashEffect s key = { s with result := murmur key s.arg0, err := .ok, inFlight := none, scratch := r } := by
  refine ⟨hshRun key s.seed s.scratch, ?_⟩
  rw [← hshRun_h (r := s.scratch)]
  rfl

theorem configAccepts_iff : configAccepts s = true ↔
    1 ≤ s.arg0.toNat ∧ s.arg0.toNat ≤ s.params.maxBits.toNat ∧ 1 ≤ s.arg1.toNat := by
  simp only [configAccepts, State.wantedBits, State.wantedHashes, Bool.and_eq_true, decide_eq_true_eq, and_assoc]

/-- What a CHECK leaves (44 R136): every field but HIT, RESULT, ERR, BUSY and the hidden registers is as before. -/
theorem checkEffect_eq (s : State) (key : List Byte) :
    ∃ r, checkEffect s key =
      { s with
        hit := decide (∀ t < s.hashCount.toNat, bitRead s.epoch s.bits
          (probeIndex (probeA key) (probeB key) s.bitCount.toNat t) = true)
        result := boolWord (decide (∀ t < s.hashCount.toNat, bitRead s.epoch s.bits
          (probeIndex (probeA key) (probeB key) s.bitCount.toNat t) = true))
        err := .ok, inFlight := none, scratch := r } := by
  refine ⟨checkProbes s.epoch s.bits s.bitCount.toNat s.hashCount.toNat key s.scratch, ?_⟩
  have hb : ((checkProbes s.epoch s.bits s.bitCount.toNat s.hashCount.toNat key s.scratch).hits ==
      s.hashCount.toNat) = decide (∀ t < s.hashCount.toNat, bitRead s.epoch s.bits
        (probeIndex (probeA key) (probeB key) s.bitCount.toNat t) = true) := by
    rw [checkProbes, (checkProbe_iterate _).2.2.2]
    have h0 : (prbStart key s.scratch).hits = 0 := rfl
    have h1 : (prbStart key s.scratch).i = 0 := rfl
    rw [h0, h1, prbStart_probeA, prbStart_probeB, Bool.eq_iff_iff]
    simp only [Nat.zero_add, beq_iff_eq, decide_eq_true_eq]
    have := List.countP_eq_length (p := fun t => bitRead s.epoch s.bits
      (probeIndex (probeA key) (probeB key) s.bitCount.toNat t))
      (l := List.range s.hashCount.toNat)
    simpa using this
  unfold checkEffect
  simp only [hb]
  rfl

/-- What an ADD leaves (44 R138, R142), the array described bit by bit and byte by byte. -/
theorem addEffect_eq (s : State) (key : List Byte) :
    let idx := probeIndex (probeA key) (probeB key) s.bitCount.toNat
    let n := s.hashCount.toNat
    let v := decide (∀ t < n, bitRead s.epoch s.bits (idx t) = true)
    ∃ m r, addEffect s key =
        { s with bits := m, hit := v, result := boolWord v, err := .ok, inFlight := none, scratch := r } ∧
      (∀ j, bitRead s.epoch m j = (bitRead s.epoch s.bits j || decide (∃ t < n, idx t = j))) ∧
      (∀ j, (∀ t < n, idx t / 8 ≠ j) → m.read j = s.bits.read j) ∧ (v = true → m = s.bits) ∧
      (s.bitCount.toNat ≠ 0 → (s.bits.wf → m.wf) ∧
        (∀ c, (s.bitCount.toNat + 7) / 8 ≤ c → s.bits.below c → m.below c) ∧
        (∀ j, s.bits.read j ≠ none → m.read j ≠ none)) := by
  intro idx n v
  have h0 : (prbStart key s.scratch).hits = 0 := rfl
  have h1 : (prbStart key s.scratch).i = 0 := rfl
  obtain ⟨-, -, -, hbit, hread, hle, hhit, hsame⟩ := addProbe_iterate (epoch := s.epoch) (bc := s.bitCount.toNat) n
    (s.bits, prbStart key s.scratch)
  simp only [h0, h1, prbStart_probeA, prbStart_probeB, Nat.zero_add] at hbit hread hle hhit hsame
  have hb : ((addProbes s.epoch s.bits s.bitCount.toNat n key s.scratch).2.hits == n) = v := by
    rw [Bool.eq_iff_iff, addProbes, beq_iff_eq, hhit]; simp [v, idx]
  refine ⟨(addProbes s.epoch s.bits s.bitCount.toNat n key s.scratch).1,
    (addProbes s.epoch s.bits s.bitCount.toNat n key s.scratch).2, ?_, hbit, hread, fun hv => ?_, fun hbc => ?_⟩
  · rw [← hb]; rfl
  · exact hsame (by simpa [v, idx] using hv)
  · exact addProbe_iterate_keeps n (s.bits, prbStart key s.scratch) (Nat.pos_of_ne_zero hbc)

/-- Everything a command can answer: an error with its code, or its own effect. -/
theorem exec_cases {i : Instr} (h : exec i s = .next t) :
    (∃ code, code ≠ .ok ∧ code ≠ .illegalCmd ∧ t = raiseError code s ∧
      (code = .notReady → s.ready = false ∧ (i = .check ∨ i = .add))) ∨
    (∃ key, i = .hash ∧ KeyFits s ∧ KeyIs s key ∧ t = hashEffect s key) ∨
    (i = .config ∧ configAccepts s = true ∧ t = configEffect s) ∨
    (∃ key, i = .check ∧ s.ready = true ∧ KeyFits s ∧ KeyIs s key ∧ s.bitCount.toNat ≠ 0 ∧ t = checkEffect s key) ∨
    (∃ key, i = .add ∧ s.ready = true ∧ KeyFits s ∧ KeyIs s key ∧ s.bitCount.toNat ≠ 0 ∧ t = addEffect s key) := by
  cases i with
  | hash =>
    rcases execHash_cases h with ⟨hf, h⟩ | ⟨key, hf, hk, h⟩
    · exact .inl ⟨_, by decide, by decide, h, by intro h; cases h⟩
    · exact .inr (.inl ⟨key, rfl, hf, hk, h⟩)
  | config =>
    rcases execConfig_cases h with ⟨ha, h⟩ | ⟨ha, h⟩
    · exact .inr (.inr (.inl ⟨rfl, ha, h⟩))
    · exact .inl ⟨_, by decide, by decide, h, by intro h; cases h⟩
  | check =>
    rcases withFilterAndKey_cases h with ⟨hr, h⟩ | ⟨hr, hf, h⟩ | ⟨key, hr, hf, hk, hb, h⟩
    · exact .inl ⟨_, by decide, by decide, h, fun _ => ⟨hr, .inl rfl⟩⟩
    · exact .inl ⟨_, by decide, by decide, h, by intro h; cases h⟩
    · exact .inr (.inr (.inr (.inl ⟨key, rfl, hr, hf, hk, hb, h⟩)))
  | add =>
    rcases withFilterAndKey_cases h with ⟨hr, h⟩ | ⟨hr, hf, h⟩ | ⟨key, hr, hf, hk, hb, h⟩
    · exact .inl ⟨_, by decide, by decide, h, fun _ => ⟨hr, .inr rfl⟩⟩
    · exact .inl ⟨_, by decide, by decide, h, by intro h; cases h⟩
    · exact .inr (.inr (.inr (.inr ⟨key, rfl, hr, hf, hk, hb, h⟩)))

/-- When `withKey` faults. -/
theorem withKey_fault_cases {effect : List Byte → Host.Outcome State Fault Refusal} {r : Fault}
    (h : withKey s effect = .fault r) :
    KeyFits s ∧ ((∃ j, r = .keyByteUnwritten j ∧ s.keyBytes = .error j) ∨ ∃ key, effect key = .fault r) := by
  by_cases hf : KeyFits s
  · refine ⟨hf, ?_⟩
    simp only [withKey, keyOverlong_eq_false hf, Bool.false_eq_true, if_false] at h
    cases hk : s.keyBytes with
    | error j => rw [hk] at h; injection h with h; exact .inl ⟨j, h.symm, rfl⟩
    | ok key => rw [hk] at h; exact .inr ⟨key, h⟩
  · rw [withKey_of_overlong hf] at h; cases h

theorem withFilterAndKey_fault_cases {effect : List Byte → State} {r : Fault} (h : withFilterAndKey s effect = .fault r) :
    s.ready = true ∧ KeyFits s ∧
      ((∃ j, r = .keyByteUnwritten j ∧ s.keyBytes = .error j) ∨ (r = .probeModulusZero ∧ s.bitCount.toNat = 0)) := by
  unfold withFilterAndKey at h
  split at h
  · obtain ⟨h1, h2⟩ := withKey_fault_cases h
    refine ⟨‹_›, h1, h2.imp id ?_⟩
    rintro ⟨key, h⟩
    split at h
    · injection h with h; exact ⟨h.symm, ‹_›⟩
    · cases h
  · cases h

/-- When a command faults. -/
theorem exec_fault_cases {i : Instr} {r : Fault} (h : exec i s = .fault r) :
    (i = .hash ∨ (i = .check ∨ i = .add) ∧ s.ready = true) ∧ KeyFits s ∧
      ((∃ j, r = .keyByteUnwritten j ∧ s.keyBytes = .error j) ∨
        (r = .probeModulusZero ∧ (i = .check ∨ i = .add) ∧ s.bitCount.toNat = 0)) := by
  cases i with
  | hash =>
    obtain ⟨h1, h2⟩ := withKey_fault_cases (show withKey s _ = _ from h)
    exact ⟨.inl rfl, h1, h2.elim .inl (fun ⟨_, h⟩ => by cases h)⟩
  | config =>
    have h : execConfig s = _ := h
    unfold execConfig at h; split at h <;> cases h
  | check =>
    obtain ⟨h1, h2, h3⟩ := withFilterAndKey_fault_cases (show withFilterAndKey s _ = _ from h)
    exact ⟨.inr ⟨.inl rfl, h1⟩, h2, h3.imp id fun h => ⟨h.1, .inl rfl, h.2⟩⟩
  | add =>
    obtain ⟨h1, h2, h3⟩ := withFilterAndKey_fault_cases (show withFilterAndKey s _ = _ from h)
    exact ⟨.inr ⟨.inr rfl, h1⟩, h2, h3.imp id fun h => ⟨h.1, .inr rfl, h.2⟩⟩

theorem withKey_ne_refused {effect : List Byte → Host.Outcome State Fault Refusal} {r : Refusal}
    (he : ∀ key, effect key ≠ .refused r) : withKey s effect ≠ .refused r := by
  intro h
  unfold withKey at h
  split at h
  · cases h
  · split at h
    · cases h
    · exact he _ h

/-- No command is refused. -/
theorem exec_ne_refused {i : Instr} {r : Refusal} : exec i s ≠ .refused r := by
  have wf : ∀ effect : List Byte → State, withFilterAndKey s effect ≠ .refused r := by
    intro effect h
    unfold withFilterAndKey at h
    split at h
    · exact withKey_ne_refused (by intro key h; split at h <;> cases h) h
    · cases h
  cases i with
  | hash => exact withKey_ne_refused (by intro key h; cases h)
  | config => intro h; have h : execConfig s = _ := h; unfold execConfig at h; split at h <;> cases h
  | check => exact wf _
  | add => exact wf _

end Sys2Proof.Machine
end

