-- ==== Sys2Proof/Laws/PerInstr.lean ====
section
/-! SUPPORT. The family `CommandWord`: what is said of each command as syntax (spec 30 R65, R66, R78). -/

namespace Sys2Proof.Laws.CommandWord

/-- A command is well formed, its word has a zero RSV field, and OP tells it from every other command. -/
def Statement (i : Instr) : Prop :=
  i.wf ∧ commandRsv (encode i) = 0#28 ∧ ∀ j : Instr, commandOp (encode j) = commandOp (encode i) → j = i

theorem hash : Statement .hash := ⟨trivial, by decide, fun j => by cases j <;> decide⟩
theorem config : Statement .config := ⟨trivial, by decide, fun j => by cases j <;> decide⟩
theorem check : Statement .check := ⟨trivial, by decide, fun j => by cases j <;> decide⟩
theorem add : Statement .add := ⟨trivial, by decide, fun j => by cases j <;> decide⟩

end Sys2Proof.Laws.CommandWord
end

