-- ==== Sys2Proof/Laws/Port.lean ====
section
/-! SUPPORT. What the host port's transactions name and do (spec 20 R45 to R49). -/

namespace Sys2Proof.Machine

variable {s : State}

/-- A 32-bit transaction at a register's offset names that register. -/
@[simp] theorem targetOf_offset (p : Params) (r : Reg) : targetOf p .w32 r.offset.toNat = .reg r := by
  cases r <;> rfl

theorem hostRead_offset (s : State) (r : Reg) : hostRead s .w32 r.offset = readReg s r := by
  simp only [hostRead, targetOf_offset]

theorem hostWrite_offset (h : s.busy = false) (r : Reg) (data : Word) :
    hostWrite s .w32 r.offset data = writeReg s r data := by
  simp only [hostWrite, targetOf_offset, h, Bool.false_eq_true, if_false]

theorem hostWrite_busy (h : s.busy = true) (w : Width) (off data : Word) :
    hostWrite s w off data = { s with overrun := true } := by
  simp only [hostWrite, h, if_true]

theorem atOffset_eq_none {off : Nat} (h : 0x28 ≤ off ∨ off % 4 ≠ 0) : Reg.atOffset off = none := by
  unfold Reg.atOffset
  split <;> first | rfl | (exfalso; omega)

/-- A transaction at an aligned place inside the key buffer names the bytes there (20 R48). -/
theorem targetOf_key {p : Params} {w : Width} {off : Nat} (h : inKeyBuffer p w off = true) :
    targetOf p w off = .key (off - keyBase) := by
  have hb : keyBase ≤ off := by
    simp only [inKeyBuffer, Bool.and_eq_true, decide_eq_true_eq] at h
    exact h.1.1
  have hn : Reg.atOffset off = none := atOffset_eq_none (.inl (le_trans (by decide) hb))
  unfold targetOf
  rw [hn]
  cases w <;> simp [h]

/-- A transaction names nothing where it is neither one (20 R49). -/
theorem targetOf_nothing {p : Params} {w : Width} {off : Nat}
    (hr : w ≠ .w32 ∨ Reg.atOffset off = none) (hk : inKeyBuffer p w off = false) : targetOf p w off = .nothing := by
  unfold targetOf
  split
  · rename_i h
    rcases hr with hr | hr
    · exact absurd rfl hr
    · rw [hr] at h; cases h
  · simp [hk]

/-- Everything a host write can do (20 R45 to R49, 70 R186). -/
theorem hostWrite_cases (s : State) (w : Width) (off data : Word) :
    (s.busy = true ∧ hostWrite s w off data = { s with overrun := true }) ∨
      (s.busy = false ∧
        (hostWrite s w off data = s ∨ hostWrite s w off data = { s with inFlight := some data } ∨
          hostWrite s w off data = { s with arg0 := data } ∨ hostWrite s w off data = { s with arg1 := data } ∨
          hostWrite s w off data = { s with keyLen := data } ∨
          ∃ j, inKeyBuffer s.params w off.toNat = true ∧ j = off.toNat - keyBase ∧
            hostWrite s w off data = { s with key := writeLanes s.key j data w.bytes })) := by
  unfold hostWrite
  cases hb : s.busy with
  | true => exact .inl ⟨rfl, rfl⟩
  | false =>
    refine .inr ⟨rfl, ?_⟩
    simp only [Bool.false_eq_true, if_false]
    cases ht : targetOf s.params w off.toNat with
    | reg r => cases r <;> simp [writeReg]
    | nothing => exact .inl rfl
    | key j =>
      refine .inr (.inr (.inr (.inr (.inr ⟨j, ?_, ?_, rfl⟩))))
      all_goals
        unfold targetOf at ht
        split at ht
        · cases ht
        · split at ht
          · first | assumption | exact (Target.key.inj ht).symm
          · cases ht

theorem record_eq (s : State) (w : Width) (off data : Word) :
    record s w off data = { s with env := { s.env with responses := ⟨off, w, data⟩ :: s.env.responses } } := rfl

/-- A read or a poll changes the host side alone (20 R57). -/
theorem runStmt_read (s : State) (x : Stmt) (rest : List Stmt) (hx : ∀ w off data, x ≠ .wr w off data) :
    ∃ e, runStmt s x rest = { s with env := e } := by
  cases x with
  | wr w off data => exact absurd rfl (hx w off data)
  | rd w off => simp only [runStmt, record_eq]; exact ⟨_, rfl⟩
  | poll =>
    cases hb : s.busy
    · simp only [runStmt, hb, record_eq, Bool.false_eq_true, if_false]; exact ⟨_, rfl⟩
    · simp only [runStmt, hb, record_eq, if_true]; exact ⟨_, rfl⟩

/-- Where a key byte of the buffer stands in the host's space (20 R46). -/
theorem keyOffset_toNat {j n : Nat} (h : j + 1 ≤ n) (hn : n ≤ 2 ^ 32 - 4096) : (keyOffset j).toNat = 4096 + j := by
  unfold keyOffset keyBase
  rw [BitVec.toNat_ofNat]; exact Nat.mod_eq_of_lt (by omega)

theorem Width.bytes_le (w : Width) : w.bytes ≤ 4 := by cases w <;> decide

/-- An aligned transaction inside the key buffer names its bytes (20 R48). -/
theorem targetOf_keyOffset {p : Params} {w : Width} {j : Nat} (hp : p.wf) (h1 : j % w.bytes = 0)
    (h2 : j + w.bytes ≤ p.keyMaxLen.toNat) : targetOf p w (keyOffset j).toNat = .key j := by
  have hw : 1 ≤ w.bytes := by cases w <;> decide
  have e := keyOffset_toNat (j := j) (n := p.keyMaxLen.toNat) (by omega) hp.2
  have hb : keyBase = 4096 := rfl
  have : inKeyBuffer p w (keyOffset j).toNat = true := by
    unfold inKeyBuffer
    rw [e, hb, Bool.and_eq_true, Bool.and_eq_true, decide_eq_true_eq, decide_eq_true_eq, beq_iff_eq]
    refine ⟨⟨Nat.le_add_right _ _, ?_⟩, by clear * - h2; omega⟩
    cases w <;> simp only [Width.bytes] at * <;> omega
  rw [targetOf_key this, e, hb, Nat.add_sub_cancel_left]

/-- A write's lanes land in the bytes it covers, and in no other (20 R48, R50). -/
theorem read_writeLanes (m : Memory) (j : Nat) (d : Word) (n k : Nat) :
    (writeLanes m j d n).read k =
      if j ≤ k ∧ k < j + n then some (d.extractLsb' (8 * (k - j)) 8) else m.read k := by
  induction n with
  | zero => rw [if_neg (by omega)]; rfl
  | succ n ih =>
    rw [writeLanes, Memory.read_write]
    by_cases h : j + n = k
    · subst h; rw [if_pos rfl, if_pos (by omega)]; simp [byteLane]
    · rw [if_neg h, ih]
      by_cases h2 : j ≤ k ∧ k < j + n
      · rw [if_pos h2, if_pos (by omega)]
      · rw [if_neg h2, if_neg (by omega)]

theorem writeLanes_wf {m : Memory} (h : m.wf) (j : Nat) (d : Word) (n : Nat) : (writeLanes m j d n).wf := by
  induction n with
  | zero => exact h
  | succ n ih => exact Memory.write_wf ih

theorem writeLanes_below {m : Memory} {b : Nat} (h : m.below b) {j : Nat} (d : Word) {n : Nat} (hn : j + n ≤ b) :
    (writeLanes m j d n).below b := by
  induction n with
  | zero => exact h
  | succ n ih => exact Memory.write_below (ih (by omega)) (by omega)

/-- Every bit of a key read (20 R48, R50). -/
theorem readLanes_bit (s : State) (j n : Nat) (hn : n ≤ 4) (k : Nat) :
    (readLanes s j n).getLsbD k = (decide (k < 8 * n) && (hostKeyByte s (j + k / 8)).getLsbD (k % 8)) := by
  induction n with
  | zero => simp [readLanes]
  | succ n ih =>
    rw [readLanes, BitVec.getLsbD_or, ih (by omega), BitVec.getLsbD_shiftLeft, BitVec.getLsbD_setWidth]
    by_cases h1 : k < 8 * n
    · have : k < 8 * (n+1) := by omega
      simp [h1, this]
    · by_cases h2 : k < 8 * (n + 1)
      · have e1 : k / 8 = n := by omega
        have e2 : k % 8 = k - 8 * n := by omega
        have e3 : k - 8 * n < 32 := by omega
        have e4 : k < 32 := by omega
        simp [h1, h2, e1, e2, e3, e4]
      · have : 8 ≤ k - 8 * n := by omega
        simp [h1, h2, BitVec.getLsbD_of_ge _ _ this]

/-- A read of `n` bytes has no bit above them. -/
theorem readLanes_lt (s : State) (j n : Nat) (hn : n ≤ 4) : (readLanes s j n).toNat < 2 ^ (8 * n) := by
  induction n with
  | zero => simp [readLanes]
  | succ n ih =>
    rw [readLanes, BitVec.toNat_or]
    refine Nat.or_lt_two_pow (lt_of_lt_of_le (ih (by omega)) (Nat.pow_le_pow_right (by decide) (by omega))) ?_
    rw [BitVec.toNat_shiftLeft, Nat.shiftLeft_eq]
    refine lt_of_le_of_lt (Nat.mod_le _ _) ?_
    rw [BitVec.toNat_setWidth]
    have := (hostKeyByte s (j + n)).isLt
    have e : 2 ^ (8 * (n + 1)) = 2 ^ 8 * 2 ^ (8 * n) := by rw [← Nat.pow_add]; congr 1; omega
    rw [e]
    refine Nat.mul_lt_mul_of_pos_right ?_ (by positivity)
    exact lt_of_le_of_lt (Nat.mod_le _ _) this

/-- Lane `q` of a key read is key byte `j + q` (20 R50). -/
theorem readLanes_lane (s : State) (j n q : Nat) (hn : n ≤ 4) (hq : q < n) :
    (readLanes s j n).extractLsb' (8 * q) 8 = hostKeyByte s (j + q) := by
  apply BitVec.eq_of_getLsbD_eq
  intro i hi
  rw [BitVec.getLsbD_extractLsb', readLanes_bit s j n hn]
  have e1 : (8 * q + i) / 8 = q := by omega
  have e2 : (8 * q + i) % 8 = i := by omega
  have e3 : 8 * q + i < 8 * n := by omega
  simp [e1, e2, e3, hi]

theorem atOffset_status {off : Nat} (h : Reg.atOffset off = some .status) : off = 4 := by
  unfold Reg.atOffset at h
  split at h <;> first | rfl | cases h

/-- A read depends on OVERRUN at STATUS alone, and never on the host side. -/
theorem hostRead_congr (s : State) (o : Bool) (e : Env) (w : Width) (off : Word)
    (ho : off ≠ 0x004#32 ∨ o = s.overrun) : hostRead { s with overrun := o, env := e } w off = hostRead s w off := by
  have hl : ∀ j n, readLanes { s with overrun := o, env := e } j n = readLanes s j n := by
    intro j n
    induction n with
    | zero => rfl
    | succ n ih => rw [readLanes, readLanes, ih]; rfl
  unfold hostRead
  show (match targetOf s.params w off.toNat with | .reg r => _ | .key j => _ | .nothing => _) = _
  cases ht : targetOf s.params w off.toNat with
  | reg r =>
    cases r <;> try rfl
    rcases ho with hoff | rfl
    · exfalso
      unfold targetOf at ht
      split at ht
      · rename_i r hw
        injection ht with ht; subst ht
        exact hoff (BitVec.eq_of_toNat_eq (atOffset_status hw))
      · split at ht <;> cases ht
    · rfl
  | key j => exact hl _ _
  | nothing => rfl

end Sys2Proof.Machine
end

