-- ==== Sys2Proof/Laws/Step.lean ====
section
/-! SUPPORT. What one step can do: one inversion lemma, which invariants cite. -/

namespace Sys2Proof.Machine

variable {s t : State}

@[simp] theorem runTurn_host : runTurn .host s = .next (hostTurn s) := rfl
@[simp] theorem runTurn_engine : runTurn .engine s = engineTurn s := rfl
@[simp] theorem runTurn_reset : runTurn .reset s = .next (resetBlock s) := rfl

theorem engineTurn_idle (h : s.inFlight = none) : engineTurn s = .next s := by simp [engineTurn, h]

theorem engineTurn_busy {c : Word} (h : s.inFlight = some c) : engineTurn s = runCommand c s := by simp [engineTurn, h]

theorem runCommand_ok {c : Word} {i : Instr} (h : decode c = .ok i) : runCommand c s = exec i s := by
  simp [runCommand, h]

theorem runCommand_error {c : Word} {e : DecodeError} (h : decode c = .error e) :
    runCommand c s = .next (raiseError .illegalCmd s) := by
  simp [runCommand, h]

/-- Everything the Engine's turn can answer. -/
theorem engineTurn_cases (h : engineTurn s = .next t) :
    (s.inFlight = none ∧ t = s) ∨
      (∃ c e, s.inFlight = some c ∧ decode c = .error e ∧ t = raiseError .illegalCmd s) ∨
        ∃ c i, s.inFlight = some c ∧ decode c = .ok i ∧ exec i s = .next t := by
  cases hc : s.inFlight with
  | none =>
    rw [engineTurn_idle hc] at h
    exact .inl ⟨rfl, by injection h with h; exact h.symm⟩
  | some c =>
    rw [engineTurn_busy hc] at h
    cases hd : decode c with
    | error e =>
      rw [runCommand_error hd] at h
      exact .inr (.inl ⟨c, e, rfl, hd, by injection h with h; exact h.symm⟩)
    | ok i => exact .inr (.inr ⟨c, i, rfl, hd, by rwa [runCommand_ok hd] at h⟩)

/-- Everything a step can answer: a turn of the host, of the Engine, or a reset. -/
theorem step_cases (h : step s = .next t) :
    (nextTurn s = .host ∧ t = hostTurn (takeTurn s)) ∨
      (nextTurn s = .engine ∧ engineTurn (takeTurn s) = .next t) ∨
        (nextTurn s = .reset ∧ t = resetBlock (takeTurn s)) := by
  unfold step at h
  cases hn : nextTurn s with
  | host => rw [hn] at h; injection h with h; exact .inl ⟨rfl, h.symm⟩
  | engine => rw [hn] at h; exact .inr (.inl ⟨rfl, h⟩)
  | reset => rw [hn] at h; injection h with h; exact .inr (.inr ⟨rfl, h.symm⟩)

theorem hostTurn_eq_cases (s : State) :
    (s.env.script = [] ∧ hostTurn s = s) ∨ ∃ x rest, s.env.script = x :: rest ∧ hostTurn s = runStmt s x rest := by
  unfold hostTurn
  cases h : s.env.script with
  | nil => exact .inl ⟨rfl, rfl⟩
  | cons x rest => exact .inr ⟨x, rest, rfl, rfl⟩

/-- Everything a turn of the host can change: the command in progress, OVERRUN, the three RW registers, KEY, and its own
side. OVERRUN never falls, and rises only by a write while BUSY = 1; KEY keeps its form and its bounds. -/
theorem hostTurn_keeps (s : State) :
    ∃ f o a0 a1 kl k e,
      hostTurn s = { s with
        inFlight := f, overrun := o, arg0 := a0, arg1 := a1, keyLen := kl, key := k, env := e } ∧
      (s.overrun = true → o = true) ∧
      (o = true → s.overrun = true ∨
        (s.busy = true ∧ ∃ w off data rest, s.env.script = .wr w off data :: rest)) ∧
      (s.key.wf → k.wf) ∧ (s.key.below s.params.keyMaxLen.toNat → k.below s.params.keyMaxLen.toNat) := by
  rcases hostTurn_eq_cases s with ⟨-, h⟩ | ⟨x, rest, hx, h⟩
  · exact ⟨_, _, _, _, _, _, _, h, fun h => h, fun h => .inl h, fun h => h, fun h => h⟩
  · rw [h]
    by_cases hw : ∃ w off data, x = .wr w off data
    · obtain ⟨w, off, data, rfl⟩ := hw
      simp only [runStmt]
      rcases hostWrite_cases (withScript s rest) w off data with ⟨hb, h⟩ | ⟨hb, h⟩
      · rw [h]; exact ⟨_, _, _, _, _, _, _, rfl, fun _ => rfl, fun _ => .inr ⟨hb, _, _, _, _, hx⟩, fun h => h, fun h => h⟩
      · rcases h with h | h | h | h | h | ⟨j, hj, hj2, h⟩ <;> rw [h]
        iterate 5 exact ⟨_, _, _, _, _, _, _, rfl, fun h => h, fun h => .inl h, fun h => h, fun h => h⟩
        refine ⟨_, _, _, _, _, _, _, rfl, fun h => h, fun h => .inl h, fun hk => writeLanes_wf hk _ _ _,
          fun hk => writeLanes_below hk _ ?_⟩
        have hj' : inKeyBuffer s.params w off.toNat = true := hj
        unfold inKeyBuffer at hj'
        rw [Bool.and_eq_true, Bool.and_eq_true, decide_eq_true_eq, decide_eq_true_eq] at hj'
        obtain ⟨⟨h1, -⟩, h2⟩ := hj'
        omega
    · obtain ⟨e, he⟩ := runStmt_read s x rest (fun w off data hx => hw ⟨w, off, data, hx⟩)
      rw [he]; exact ⟨_, _, _, _, _, _, _, rfl, fun h => h, fun h => .inl h, fun h => h, fun h => h⟩

/-! The host's `run`, one step at a time. -/

variable {n : Nat}

theorem core_run_zero (s : State) : core.run 0 s = .next s := rfl

theorem core_run_next (h : step s = .next t) : core.run (n + 1) s = core.run n t := by
  refine (Host.Core.run.eq_2 core s n).trans ?_
  have h : core.step s = .next t := h
  rw [h]

theorem core_run_fault {r : Fault} (h : step s = .fault r) : core.run (n + 1) s = .fault r := by
  refine (Host.Core.run.eq_2 core s n).trans ?_
  have h : core.step s = .fault r := h
  rw [h]

theorem core_run_refused {r : Refusal} (h : step s = .refused r) : core.run (n + 1) s = .refused r := by
  refine (Host.Core.run.eq_2 core s n).trans ?_
  have h : core.step s = .refused r := h
  rw [h]

end Sys2Proof.Machine
end

