-- ==== Sys2Proof/Tests/Slice0.lean ====
section
/-! SUPPORT. Tests of the model, each against a value printed in the spec (its vector or rule is named), and one witness
for the hypotheses of every statement that has some. -/

namespace Sys2Proof.Tests

open Sys2Proof.Machine

set_option Elab.async false

/-! ## Helpers -/

/-- The next state's answer to `p`; false for a fault or a refusal. -/
def nextHas (o : Host.Outcome State Fault Refusal) (p : State → Bool) : Bool :=
  match o with
  | .next t => p t
  | .fault _ => false
  | .refused _ => false

/-- What `nextHas` says: there is a next state, and `p` holds of it. -/
theorem nextHas_spec {o : Host.Outcome State Fault Refusal} {p : State → Bool} (h : nextHas o p = true) :
    ∃ t, o = .next t ∧ p t = true := by
  cases o with
  | next t => exact ⟨t, rfl, h⟩
  | fault r => exact absurd h (by simp [nextHas])
  | refused r => exact absurd h (by simp [nextHas])

/-- The fault an outcome stops with. -/
def faultOf (o : Host.Outcome State Fault Refusal) : Option Fault :=
  match o with
  | .fault r => some r
  | .next _ => none
  | .refused _ => none

/-- A block of 64 bits and an 8-byte key buffer, right after reset. -/
def blk : State := State.resetWith { maxBits := 64#32, keyMaxLen := 8#32 }

/-- `s` with `key` in the buffer and its length in KEY_LEN. -/
def keyed (s : State) (key : List Byte) : State :=
  { s with key := (List.range key.length).zip key, keyLen := BitVec.ofNat 32 key.length }

/-- `s` with ARG0 and ARG1. -/
def args (s : State) (a0 a1 : Word) : State := { s with arg0 := a0, arg1 := a1 }

/-- `s` with a filter of `bc` bits and `hc` hashes over the given bytes. -/
def filtered (s : State) (bc hc : Word) (bytes : List Byte) : State :=
  { s with ready := true, bitCount := bc, hashCount := hc, bits := (List.range bytes.length).zip bytes }

/-- `s` with the word `c` in progress and the Engine next. -/
def running (s : State) (c : Word) : State := placeCommand s c

/-- `s` with a host script and the turns to come. -/
def hosted (s : State) (script : List Stmt) (schedule : List Turn) : State :=
  { s with env := { script := script, schedule := schedule, responses := [] } }

def keyX : List Byte := [0x78#8]

def keyAbcde : List Byte := [0x61#8, 0x62#8, 0x63#8, 0x64#8, 0x65#8]

/-- After vector A1: `config 16, 3; add "x"`, the key "x" still in place. -/
def afterA1 : State := keyed (filtered blk 16#32 3#32 [0x40#8, 0x12#8]) keyX

/-- After `config 16, 3`, with the key "x" in place. -/
def fresh16 : State := keyed (filtered blk 16#32 3#32 [0x00#8, 0x00#8]) keyX

/-! ## WellFormed: what the checks refuse -/

theorem test_params_no_bits_refused : ¬ Params.wf { maxBits := 0#32, keyMaxLen := 16#32 } := by decide
theorem test_params_key_past_space_refused : ¬ Params.wf { maxBits := 1#32, keyMaxLen := 0xFFFFF001#32 } := by decide
theorem test_params_bounds_accepted :
    Params.wf { maxBits := 1#32, keyMaxLen := 0#32 } ∧ Params.wf { maxBits := 0xFFFFFFFF#32, keyMaxLen := 0xFFFFF000#32 } :=
  by decide
theorem test_word_op_zero_refused : ¬ commandLegal 0x00000000#32 := by decide
theorem test_word_op_five_refused : ¬ commandLegal 0x00000005#32 := by decide
theorem test_word_reserved_bits_refused : ¬ commandLegal 0x00000012#32 ∧ ¬ commandLegal 0x80000003#32 := by decide
theorem test_memory_out_of_order_refused : ¬ Memory.wf [(1, 0#8), (0, 0#8)] ∧ ¬ Memory.wf [(1, 0#8), (1, 0#8)] := by decide
theorem test_commands_well_formed : Instr.wf .hash ∧ Instr.wf .config ∧ Instr.wf .check ∧ Instr.wf .add := by
  simp [Instr.wf]

/-! ## Decode: words written from 30 R65, R66 -/

theorem test_decode_hash : decode 0b00000000000000000000000000000001#32 = .ok .hash := by decide
theorem test_decode_config : decode 0b00000000000000000000000000000010#32 = .ok .config := by decide
theorem test_decode_check : decode 0b00000000000000000000000000000011#32 = .ok .check := by decide
theorem test_decode_add : decode 0b00000000000000000000000000000100#32 = .ok .add := by decide
theorem test_decode_sign_bit : decode 0b10000000000000000000000000000011#32 = .error .reservedBitsSet := by decide
theorem test_decode_table_word :
    decodeTableWord 32 4 = some .add ∧ decodeTableWord 32 (2 ^ 32 + 1) = some .hash ∧ decodeTableWord 40 (2 ^ 32 + 1) = none :=
  by decide
/-- 30 R78. -/
theorem test_disassemble : disassemble 0x00000003#32 = "check" ∧ disassemble 0x8000ABCD#32 = "illegal 0x8000ABCD" := by
  decide +kernel

/-! ## HSH and HASH -/

/-- H1, H5, H10, H17, H25. -/
theorem test_hash_vectors :
    murmur [] 0#32 = 0#32 ∧ murmur [0x61#8, 0x62#8] 0#32 = 0x1aa14063#32 ∧
      murmur [0x61#8, 0x62#8, 0x63#8, 0x64#8, 0x65#8, 0x66#8, 0x67#8] 0#32 = 0xf9a1cef3#32 ∧
      murmur [0xff#8, 0xff#8, 0xff#8, 0xff#8] 0xffffffff#32 = 0xe3ef6e5f#32 ∧ murmur [0x80#8] 0#32 = 0x9b891bb0#32 := by
  decide +kernel

/-- T1, E3: `hash 1, "abcde"` from reset. -/
theorem test_hash_command :
    nextHas (exec .hash (args (keyed blk keyAbcde) 1#32 0#32))
      (fun t => t.result == 0xcec85d7e#32 && t.err == .ok && t.statusWord == 0#32) = true := by decide +kernel

/-- E10: KEY_LEN = KEY_MAX_LEN + 1. -/
theorem test_hash_key_too_long :
    nextHas (exec .hash { blk with keyLen := 9#32, result := 5#32 })
      (fun t => t.statusWord == 0x400#32 && t.result == 5#32) = true := by decide +kernel

/-- E15: `hash 0` with KEY_LEN = 3 and no key byte written. -/
theorem test_hash_unwritten_key : faultOf (exec .hash { blk with keyLen := 3#32 }) = some (.keyByteUnwritten 0) := by
  decide +kernel

/-! ## CONFIG -/

/-- CF1 with 8 bytes of room: `config 63, 7` zeroes eight bytes. -/
theorem test_config_command :
    nextHas (exec .config (args blk 63#32 7#32))
      (fun t => t.statusWord == 2#32 && t.bitCount == 63#32 && t.hashCount == 7#32 &&
        t.bits == (List.range 8).map (fun j => (j, 0#8))) = true := by decide +kernel

/-- CF2, CF3, CF4: rejected operands. -/
theorem test_config_rejects :
    nextHas (exec .config (args blk 0#32 7#32)) (fun t => t.statusWord == 0x100#32) = true ∧
      nextHas (exec .config (args blk 16#32 0#32)) (fun t => t.statusWord == 0x100#32) = true ∧
      nextHas (exec .config (args blk 65#32 3#32)) (fun t => t.statusWord == 0x100#32 && t.bitCount == 0#32) = true := by
  decide +kernel

/-! ## PRB, CHECK and ADD -/

/-- 2.7 S1 "foo"; A4 and A8's probes. -/
theorem test_probe_indices :
    probeIndices [0x66#8, 0x6f#8, 0x6f#8] 191 7 = [156, 90, 24, 149, 83, 17, 142] ∧
      probeIndices [0x6b#8, 0x31#8] 8 4 = [1, 5, 1, 5] ∧ probeIndices [0x6b#8, 0x32#8, 0x32#8] 16 4 = [13, 13, 13, 13] := by
  decide +kernel

/-- A2, A5. -/
theorem test_check_command :
    nextHas (exec .check afterA1) (fun t => t.statusWord == 6#32 && t.result == 1#32) = true ∧
      nextHas (exec .check (keyed afterA1 [0x79#8])) (fun t => t.statusWord == 2#32 && t.result == 0#32) = true := by
  decide +kernel

/-- E1, E8, E9: the errors of CHECK and their order. -/
theorem test_check_errors :
    nextHas (exec .check (keyed blk [0x66#8])) (fun t => t.statusWord == 0x208#32 && t.result == 0#32) = true ∧
      nextHas (exec .check { afterA1 with keyLen := 9#32 }) (fun t => t.statusWord == 0x402#32) = true ∧
      nextHas (exec .check { blk with keyLen := 9#32 }) (fun t => t.statusWord == 0x208#32) = true := by decide +kernel

/-- A1, A3. -/
theorem test_add_command :
    nextHas (exec .add fresh16)
        (fun t => t.statusWord == 2#32 && t.result == 0#32 && t.bits == [(0, 0x40#8), (1, 0x12#8)]) = true ∧
      nextHas (exec .add afterA1)
        (fun t => t.statusWord == 6#32 && t.result == 1#32 && t.bits == [(0, 0x40#8), (1, 0x12#8)]) = true := by
  decide +kernel

/-- A4: a repeated probe counts as a hit, and the ADD still answers false. -/
theorem test_add_repeated_probe :
    nextHas (exec .add (keyed (filtered blk 8#32 4#32 [0#8]) [0x6b#8, 0x31#8]))
      (fun t => t.result == 0#32 && t.bits == [(0, 0x22#8)] && t.scratch.hits == 2) = true := by decide +kernel

/-! ## The step, the port, the host -/

/-- E5: an illegal word on a ready filter. -/
theorem test_step_illegal_word :
    nextHas (step (running afterA1 0x00000012#32)) (fun t => t.statusWord == 0x302#32 && t.bits == afterA1.bits) = true :=
  by decide +kernel

/-- `withFetchWord` on the state after reset. -/
theorem test_step_runs_fetched_word :
    nextHas (step (State.reset.withFetchWord 32 2)) (fun t => t.statusWord == 0x100#32) = true := by decide +kernel

/-- E13, E14: a write while busy sets OVERRUN and is dropped; reset clears it. -/
theorem test_step_overrun_and_reset :
    nextHas (step (hosted { blk with inFlight := some 2#32 } [.wr .w32 8#32 5#32] [.host]))
        (fun t => t.statusWord == 0x11#32 && t.arg0 == 0#32) = true ∧
      nextHas (step (hosted { blk with overrun := true, fault := true, arg0 := 5#32 } [] [.reset]))
        (fun t => t.statusWord == 0#32 && t.arg0 == 0#32 && t.epoch == 1) = true := by decide +kernel

/-- M1, M2, M4, M11. -/
theorem test_port_key_lanes :
    hostRead (hostWrite blk .w32 0x1000#32 0x64636261#32) .w8 0x1002#32 = 0x63#32 ∧
      hostRead (hostWrite blk .w32 0x1000#32 0x64636261#32) .w16 0x1002#32 = 0x6463#32 ∧
      hostWrite blk .w16 0x1001#32 0xffff#32 = blk ∧ hostWrite blk .w32 0x1006#32 0xffff#32 = blk := by decide +kernel

/-- M5 to M10. -/
theorem test_port_registers :
    hostWrite blk .w8 0x008#32 0x55#32 = blk ∧ hostRead blk .w32 0x000#32 = 0#32 ∧
      hostWrite blk .w32 0x014#32 0x12345678#32 = blk ∧ hostRead blk .w32 0x028#32 = 0#32 ∧
      hostRead blk .w32 0x020#32 = 64#32 ∧ hostRead blk .w32 0x024#32 = 8#32 ∧
      hostWrite blk .w32 0x004#32 0xffffffff#32 = blk := by decide +kernel

/-- M12: `loadkey "abcde"`. -/
theorem test_loadkey_expansion :
    scriptLoadKey keyAbcde =
      [.wr .w32 0x1000#32 0x64636261#32, .wr .w8 0x1004#32 0x65#32, .wr .w32 0x010#32 5#32] := by decide +kernel

/-! ## NEW -/

/-- Z1, Z2, Z3, with the spec's LN64 values -4.605170185988091, -0.6931471805599453 and -0.10536051565782628. -/
theorem test_new_vectors :
    newSizing (fun _ => 0xc0126bb1bbb55515#64) 20#32 0x3f847ae147ae147b#64 = .filter 191#32 7#32 ∧
      newSizing (fun _ => 0xbfe62e42fefa39ef#64) 1#32 0x3fe0000000000000#64 = .filter 1#32 2#32 ∧
      newSizing (fun _ => 0xbfbaf8e8210a415c#64) 1#32 0x3feccccccccccccd#64 = .invalidParameters := by decide +kernel

/-- Z13, Z14, Z15, Z17: capacity 0, error rates 0.0, 1.0 and NaN. -/
theorem test_new_rejects :
    newSizing id 0#32 0x3f847ae147ae147b#64 = .invalidParameters ∧ newSizing id 10#32 0#64 = .invalidParameters ∧
      newSizing id 10#32 0x3ff0000000000000#64 = .invalidParameters ∧
      newSizing id 10#32 0x7ff8000000000000#64 = .invalidParameters := by decide +kernel

/-! ## Witnesses: states and operands that meet the hypotheses of the statements -/

/-- An invariant state with a filter that holds a key: a witness of every statement over `BlockInv`. -/
theorem witness_BlockInv : BlockInv afterA1 where
  params := by decide
  keyWf := by decide
  keyBelow := by decide
  bitsWf := by decide
  bitsBelow := by decide +kernel
  readyFilter := fun _ => ⟨by decide, by decide, by decide, by decide +kernel⟩
  notReady := fun h => by cases h
  padding := fun _ => by decide +kernel

/-- The same with a filter of 13 bits, whose last byte has padding bits, and a command in progress. -/
def afterPad : State := running (keyed (filtered blk 13#32 3#32 [0x40#8, 0x10#8]) keyX) 4#32

theorem witness_BlockInv_padding : BlockInv afterPad where
  params := by decide
  keyWf := by decide
  keyBelow := by decide
  bitsWf := by decide
  bitsBelow := by decide +kernel
  readyFilter := fun _ => ⟨by decide, by decide, by decide, by decide +kernel⟩
  notReady := fun h => by cases h
  padding := fun _ => by decide +kernel

theorem witness_ResetGivesEveryRegisterItsValue : nextTurn (hosted afterA1 [] [.reset]) = .reset := by decide

theorem witness_ResetMeetsTheInvariant :
    Params.wf Config.defaultParams ∧ Params.wf { maxBits := 1#32, keyMaxLen := 0#32 } := by decide

theorem witness_EveryStepKeepsTheInvariant : ∃ t, BlockInv afterPad ∧ step afterPad = .next t := by
  obtain ⟨t, ht, -⟩ := nextHas_spec (o := step afterPad) (p := fun _ => true) (by decide +kernel)
  exact ⟨t, witness_BlockInv_padding, ht⟩

/-- A run of two host writes, CMD's write and the Engine's turn: idle with a filter; and the run of no step: idle without
one. -/
theorem witness_IdleStatesKeepTheFilterInvariants :
    Params.wf blk.params ∧
      (∃ t, core.run 4 { blk with env := { Env.empty with script := scriptConfig 13#32 2#32 } } = .next t ∧
        t.busy = false ∧ t.ready = true) ∧
      ∃ t, core.run 0 { blk with env := Env.empty } = .next t ∧ t.busy = false ∧ t.ready = false := by
  refine ⟨by decide, ?_, blk, rfl, rfl, rfl⟩
  obtain ⟨t, ht, hp⟩ := nextHas_spec
    (o := core.run 4 { blk with env := { Env.empty with script := scriptConfig 13#32 2#32 } })
    (p := fun t => !t.busy && t.ready) (by decide +kernel)
  simp only [Bool.and_eq_true, Bool.not_eq_true'] at hp
  exact ⟨t, ht, hp.1, hp.2⟩

theorem witness_StepRunsTheDecodedCommand :
    (running afterA1 3#32).inFlight = some 3#32 ∧ decode 3#32 = .ok .check ∧ nextTurn (running afterA1 3#32) = .engine := by
  decide

theorem witness_IllegalWordsEndWithIllegalCmd :
    ¬ commandLegal 5#32 ∧ blk.busy = false ∧ (running blk 5#32).inFlight = some 5#32 ∧
      nextTurn (running blk 5#32) = .engine := by decide

theorem witness_DecodeAcceptsExactlyFourWords : ¬ commandLegal 0x10#32 ∧ commandLegal 4#32 := by decide

/-- The longest key, the empty key, and a key one byte too long. -/
theorem witness_HashWritesTheHash :
    (KeyFits (keyed blk (List.replicate 8 1#8)) ∧ KeyIs (keyed blk (List.replicate 8 1#8)) (List.replicate 8 1#8)) ∧
      (KeyFits (keyed blk []) ∧ KeyIs (keyed blk []) []) ∧ ¬ KeyFits { blk with keyLen := 9#32 } := by decide +kernel

/-- The same key and seed, in two states whose filters and RESULT differ. -/
theorem witness_HashIsDeterministic :
    ∃ s' t', exec .hash (keyed blk keyX) = .next s' ∧ exec .hash { afterA1 with result := 7#32 } = .next t' ∧
      s'.err = .ok ∧ t'.err = .ok ∧ (keyed blk keyX).keyLen = afterA1.keyLen ∧ (keyed blk keyX).arg0 = afterA1.arg0 ∧
      ∀ j < (keyed blk keyX).keyLen.toNat, (keyed blk keyX).key.read j = afterA1.key.read j := by
  obtain ⟨s', hs, h1⟩ := nextHas_spec (o := exec .hash (keyed blk keyX)) (p := fun t => decide (t.err = .ok))
    (by decide +kernel)
  obtain ⟨t', ht, h2⟩ := nextHas_spec (o := exec .hash { afterA1 with result := 7#32 }) (p := fun t => decide (t.err = .ok))
    (by decide +kernel)
  exact ⟨s', t', hs, ht, of_decide_eq_true h1, of_decide_eq_true h2, by decide, by decide, by decide⟩

theorem witness_HashOfEmptyAndWholeBlocks : ([1#8, 2#8, 3#8, 4#8] : List Byte).length % 4 = 0 := by decide

/-- The last word of the buffer, inside a key that ends there. -/
theorem witness_HostWordIsTheBlockWord :
    blk.params.wf ∧ blk.busy = false ∧ 4 * 1 + 4 ≤ blk.params.keyMaxLen.toNat ∧
      KeyIs (hostWrite (keyed blk (List.replicate 8 1#8)) .w32 (keyOffset (4 * 1)) 0x08070605#32)
        [1#8, 1#8, 1#8, 1#8, 5#8, 6#8, 7#8, 8#8] ∧
      4 * 1 + 4 ≤ [1#8, 1#8, 1#8, 1#8, 5#8, 6#8, 7#8, 8#8].length := by decide +kernel

/-- The smallest and the largest accepted operands, and the three rejections next to them. -/
theorem witness_ConfigMakesTheFilter :
    (∀ s ∈ [args blk 1#32 1#32, args blk 64#32 0xFFFFFFFF#32],
        1 ≤ s.arg0.toNat ∧ s.arg0.toNat ≤ s.params.maxBits.toNat ∧ 1 ≤ s.arg1.toNat) ∧
      ∀ s ∈ [args blk 0#32 1#32, args blk 65#32 1#32, args blk 64#32 0#32],
        ¬ (1 ≤ s.arg0.toNat ∧ s.arg0.toNat ≤ s.params.maxBits.toNat ∧ 1 ≤ s.arg1.toNat) := by decide

theorem witness_ByteCountIsTheCeiling :
    1 ≤ (64#32 : Word).toNat ∧ (64#32 : Word).toNat ≤ blk.params.maxBits.toNat ∧ 1 ≤ (1#32 : Word).toNat := by decide

theorem witness_FreshFilterHoldsNothing :
    ∃ t, exec .config (args (keyed blk keyX) 13#32 3#32) = .next t ∧ t.err = .ok ∧ KeyFits t ∧ KeyIs t keyX := by
  obtain ⟨t, ht, hp⟩ := nextHas_spec (o := exec .config (args (keyed blk keyX) 13#32 3#32))
    (p := fun t => decide (t.err = .ok ∧ KeyFits t ∧ KeyIs t keyX)) (by decide +kernel)
  exact ⟨t, ht, of_decide_eq_true hp⟩

/-- P1: for "foo" and 191 bits, probe 2 is 24; a 32-bit wrapping datapath gives 68. -/
theorem test_probe_index_wide_domain :
    probeIndex (probeA [0x66#8, 0x6f#8, 0x6f#8]) (probeB [0x66#8, 0x6f#8, 0x6f#8]) 191 2 = 24 ∧
      probeIndex32 (probeA [0x66#8, 0x6f#8, 0x6f#8]) (probeB [0x66#8, 0x6f#8, 0x6f#8]) 191 2 = 68 := by decide +kernel

theorem witness_SixtyFourBitDatapathIsExact : (0xFFFFFFFF#32 : Word) ≠ 0#32 ∧ 2 ^ 32 - 2 ≤ 2 ^ 32 - 2 := by decide

theorem witness_IncrementalIndicesAgree : 1 ≤ 1 ∧ 1 ≤ 191 := by decide

theorem witness_ProbeCornerCases : (382#32 : Word).toNat % 191 = 0 ∧ 31 ≤ 31 ∧ 0 ≤ 31 := by decide

theorem witness_CheckReportsWhetherEveryBitIsSet :
    (afterA1.ready = true ∧ afterA1.bitCount ≠ 0#32 ∧ KeyFits afterA1 ∧ KeyIs afterA1 keyX) ∧ blk.ready = false ∧
      ({ afterA1 with keyLen := 9#32 } : State).ready = true ∧ ¬ KeyFits { afterA1 with keyLen := 9#32 } := by decide

theorem witness_AddSetsEveryProbedBit :
    (fresh16.ready = true ∧ fresh16.bitCount ≠ 0#32 ∧ KeyFits fresh16 ∧ KeyIs fresh16 keyX) ∧ blk.ready = false ∧
      ({ fresh16 with keyLen := 9#32 } : State).ready = true ∧ ¬ KeyFits { fresh16 with keyLen := 9#32 } := by decide

theorem witness_AddAnswersTheCheckBeforeIt : ∃ t, exec .add fresh16 = .next t ∧ t.err = .ok := by
  obtain ⟨t, ht, hp⟩ := nextHas_spec (o := exec .add fresh16) (p := fun t => decide (t.err = .ok)) (by decide +kernel)
  exact ⟨t, ht, of_decide_eq_true hp⟩

/-- The probes of "x" in the order 12, 6, 9. -/
theorem witness_CheckMayReorderAndStopEarly :
    ∃ t, exec .check afterA1 = .next t ∧ t.err = .ok ∧ KeyIs afterA1 keyX ∧
      [12, 6, 9].Perm (probeIndices keyX afterA1.bitCount.toNat afterA1.hashCount.toNat) := by
  obtain ⟨t, ht, hp⟩ := nextHas_spec (o := exec .check afterA1)
    (p := fun t => decide (t.err = .ok ∧ KeyIs afterA1 keyX ∧
      [12, 6, 9].Perm (probeIndices keyX afterA1.bitCount.toNat afterA1.hashCount.toNat))) (by decide +kernel)
  exact ⟨t, ht, of_decide_eq_true hp⟩

theorem witness_ParallelAddAgrees :
    ∃ t, exec .add fresh16 = .next t ∧ t.err = .ok ∧ KeyIs fresh16 keyX ∧
      [9, 12, 6].Perm (probeIndices keyX fresh16.bitCount.toNat fresh16.hashCount.toNat) := by
  obtain ⟨t, ht, hp⟩ := nextHas_spec (o := exec .add fresh16)
    (p := fun t => decide (t.err = .ok ∧ KeyIs fresh16 keyX ∧
      [9, 12, 6].Perm (probeIndices keyX fresh16.bitCount.toNat fresh16.hashCount.toNat))) (by decide +kernel)
  exact ⟨t, ht, of_decide_eq_true hp⟩

/-- An ADD that sets bit 6, and a CONFIG that clears it. -/
theorem witness_BitsChangeOnlyByConfigAddAndReset :
    (∃ t, step (running fresh16 4#32) = .next t ∧ nextTurn (running fresh16 4#32) ≠ .reset ∧
        bitRead t.epoch t.bits 6 ≠ bitRead fresh16.epoch fresh16.bits 6) ∧
      ∃ t, step (running (args afterA1 16#32 3#32) 2#32) = .next t ∧
        nextTurn (running (args afterA1 16#32 3#32) 2#32) ≠ .reset ∧
        bitRead t.epoch t.bits 6 ≠ bitRead afterA1.epoch afterA1.bits 6 := by
  refine ⟨?_, ?_⟩
  · obtain ⟨t, ht, hp⟩ := nextHas_spec (o := step (running fresh16 4#32))
      (p := fun t => decide (bitRead t.epoch t.bits 6 ≠ bitRead fresh16.epoch fresh16.bits 6)) (by decide +kernel)
    exact ⟨t, ht, by decide, of_decide_eq_true hp⟩
  · obtain ⟨t, ht, hp⟩ := nextHas_spec (o := step (running (args afterA1 16#32 3#32) 2#32))
      (p := fun t => decide (bitRead t.epoch t.bits 6 ≠ bitRead afterA1.epoch afterA1.bits 6)) (by decide +kernel)
    exact ⟨t, ht, by decide, of_decide_eq_true hp⟩

/-- An ADD of "x", then one step in which the host reads STATUS, the key still in place. -/
theorem witness_NoFalseNegatives :
    ∃ t u, KeyIs (hosted fresh16 [rdReg .status] []) keyX ∧ exec .add (hosted fresh16 [rdReg .status] []) = .next t ∧
      t.err = .ok ∧ KeepsFilter t u ∧ KeyIs u keyX ∧ u.env.responses ≠ t.env.responses := by
  obtain ⟨t, ht, hp⟩ := nextHas_spec (o := exec .add (hosted fresh16 [rdReg .status] []))
    (p := fun t => decide (t.err = .ok ∧ nextTurn t = .host ∧
      nextHas (step t) (fun u => decide (KeyIs u keyX ∧ u.env.responses ≠ t.env.responses)) = true)) (by decide +kernel)
  obtain ⟨h1, h2, h3⟩ := of_decide_eq_true hp
  obtain ⟨u, hu, hq⟩ := nextHas_spec h3
  obtain ⟨h4, h5⟩ := of_decide_eq_true hq
  refine ⟨t, u, by decide, ht, h1, Relation.ReflTransGen.single ⟨hu, ?_, fun h => ?_⟩, h4, h5⟩
  · rw [h2]; decide
  · have h := h.1
    rw [h2] at h; cases h

theorem witness_InsertionIsIdempotent :
    ∃ t, KeyIs fresh16 keyX ∧ exec .add fresh16 = .next t ∧ t.err = .ok ∧ KeepsFilter t t ∧ KeyIs t keyX := by
  obtain ⟨t, ht, hp⟩ := nextHas_spec (o := exec .add fresh16) (p := fun t => decide (t.err = .ok ∧ KeyIs t keyX))
    (by decide +kernel)
  obtain ⟨h1, h2⟩ := of_decide_eq_true hp
  exact ⟨t, by decide, ht, h1, Relation.ReflTransGen.refl, h2⟩

theorem witness_ProbeModulusIsNeverZero : BlockInv afterPad ∧ nextTurn afterPad = .engine :=
  ⟨witness_BlockInv_padding, by decide⟩

/-- A command that completes without error, and one that completes with NOT_READY. -/
theorem witness_ErrorsHaveNoPartialEffect :
    (∃ t, runCommand 3#32 afterA1 = .next t ∧ t.err = .ok) ∧ ∃ t, runCommand 3#32 blk = .next t ∧ t.err = .notReady := by
  refine ⟨?_, ?_⟩
  · obtain ⟨t, ht, hp⟩ := nextHas_spec (o := runCommand 3#32 afterA1) (p := fun t => decide (t.err = .ok)) (by decide +kernel)
    exact ⟨t, ht, of_decide_eq_true hp⟩
  · obtain ⟨t, ht, hp⟩ := nextHas_spec (o := runCommand 3#32 blk) (p := fun t => decide (t.err = .notReady))
      (by decide +kernel)
    exact ⟨t, ht, of_decide_eq_true hp⟩

/-- Each error code by a command that reports it. -/
theorem witness_ErrorCausesAndPriority :
    nextHas (runCommand 0#32 blk) (fun t => t.err == .illegalCmd) = true ∧
      nextHas (exec .hash { blk with keyLen := 9#32 }) (fun t => t.err == .keyTooLong) = true ∧
      nextHas (exec .config blk) (fun t => t.err == .invalidParams) = true ∧
      nextHas (exec .add { blk with keyLen := 9#32 }) (fun t => t.err == .notReady) = true ∧
      nextHas (exec .check { afterA1 with keyLen := 9#32 }) (fun t => t.err == .keyTooLong) = true := by decide +kernel

/-- FAULT newly set, OVERRUN newly set, and both kept over a step. -/
theorem witness_StickyBitsStay :
    (nextHas (step (running blk 3#32)) (fun t => t.fault) = true ∧ nextTurn (running blk 3#32) ≠ .reset) ∧
      (nextHas (step (hosted { blk with inFlight := some 2#32 } [.wr .w8 0#32 0#32] [.host])) (fun t => t.overrun) = true ∧
        nextTurn (hosted { blk with inFlight := some 2#32 } [.wr .w8 0#32 0#32] [.host]) ≠ .reset) ∧
      nextHas (step (running { afterA1 with fault := true, overrun := true } 3#32)) (fun t => t.fault && t.overrun) = true := by
  decide +kernel

theorem witness_RecordedFaultIsNeverFinal :
    ({ blk with fault := true } : State).fault = true ∧
      Relation.ReflTransGen NoResetStep { blk with fault := true } { blk with fault := true } :=
  ⟨rfl, Relation.ReflTransGen.refl⟩

/-- A CONFIG that makes a filter, and a reset that drops one. -/
theorem witness_FilterRegistersChangeOnlyByConfigAndReset :
    nextHas (step (running (args blk 16#32 3#32) 2#32)) (fun t => t.ready && t.bitCount == 16#32) = true ∧
      afterA1.ready = true ∧ nextHas (step (hosted afterA1 [] [.reset])) (fun t => !t.ready) = true := by decide +kernel

theorem witness_CommandsLeaveTheirOperands : ∃ t, runCommand 4#32 fresh16 = .next t ∧ t.bits ≠ fresh16.bits := by
  obtain ⟨t, ht, hp⟩ := nextHas_spec (o := runCommand 4#32 fresh16) (p := fun t => decide (t.bits ≠ fresh16.bits))
    (by decide +kernel)
  exact ⟨t, ht, of_decide_eq_true hp⟩

theorem witness_CommandsCompleteInBoundedSteps : BlockInv afterPad ∧ afterPad.busy = true :=
  ⟨witness_BlockInv_padding, rfl⟩

/-- Key byte 1 of two was never written, on a ready filter; and each faulting command. -/
theorem witness_UnwrittenKeyByteIsAFault :
    let s : State := { afterA1 with keyLen := 2#32 }
    (KeyFits s ∧ 1 < s.keyLen.toNat ∧ s.key.read 1 = none ∧ (∀ i < 1, s.key.read i ≠ none) ∧ s.ready = true) ∧
      faultOf (exec .hash s) = some (.keyByteUnwritten 1) ∧ faultOf (exec .check s) = some (.keyByteUnwritten 1) ∧
      faultOf (exec .add s) = some (.keyByteUnwritten 1) := by decide +kernel

theorem witness_WriteToCmdStartsACommand : afterA1.busy = false := by decide

/-- A busy block whose next turn is the host's, with a write to issue. -/
theorem witness_BusyBlockDropsWrites :
    let s := hosted { afterA1 with inFlight := some 3#32 } [.wr .w32 8#32 5#32] [.host]
    s.busy = true ∧ nextTurn s = .host ∧ ∃ t, step s = .next t ∧ t.overrun = true := by
  refine ⟨by decide, by decide, ?_⟩
  obtain ⟨t, ht, hp⟩ := nextHas_spec (o := step (hosted { afterA1 with inFlight := some 3#32 } [.wr .w32 8#32 5#32] [.host]))
    (p := fun t => t.overrun) (by decide +kernel)
  exact ⟨t, ht, hp⟩

theorem witness_ReadsHaveNoSideEffects :
    (let s := hosted afterA1 [.rd .w32 0x018#32, .poll] [];
      nextTurn s = .host ∧ s.env.script = .rd .w32 0x018#32 :: [.poll] ∧
        nextHas (step s) (fun t => t.env.responses == [⟨0x018#32, .w32, 16#32⟩]) = true) ∧
      blk.busy = false ∧ (hostWrite blk .w32 0#32 9#32).busy = true := by decide +kernel

theorem witness_RegisterMap : blk.busy = false ∧ 0x024#32 ∈ [0x004#32, 0x014#32, 0x018#32, 0x01C#32, 0x020#32, 0x024#32] := by
  decide

theorem witness_StatusLayout : blk.busy = false ∧ (running blk 1#32).busy = true := by decide

/-- The first and the last place of each width in a buffer of 8 bytes, a written byte at each end. -/
theorem witness_KeyBufferLanes :
    let s := keyed blk (List.replicate 8 7#8)
    s.params.wf ∧ s.busy = false ∧
      (∀ x ∈ [(Width.w8, 0), (.w8, 7), (.w16, 0), (.w16, 6), (.w32, 0), (.w32, 4)],
        x.2 % x.1.bytes = 0 ∧ x.2 + x.1.bytes ≤ s.params.keyMaxLen.toNat) ∧
      s.key.read 0 = some 7#8 ∧ s.key.read 7 = some 7#8 := by decide +kernel

/-- The offset after the last register, a register by a byte, a misaligned register, and key transactions that are
misaligned, below, or past the buffer; idle and busy. -/
theorem witness_MeaninglessTransactionsAreDropped :
    (∀ x ∈ [(Width.w32, 0x028#32), (.w8, 0x008#32), (.w32, 0x00A#32), (.w16, 0x1001#32), (.w32, 0x0FFC#32),
        (.w32, 0x1006#32), (.w8, 0x1008#32)],
      ¬ (x.1 = .w32 ∧ (x.2 : Word).toNat % 4 = 0 ∧ x.2.toNat < 0x28) ∧
        ¬ (0x1000 ≤ x.2.toNat ∧ x.2.toNat % x.1.bytes = 0 ∧
          x.2.toNat + x.1.bytes ≤ 0x1000 + blk.params.keyMaxLen.toNat)) ∧
      blk.busy = false ∧ (running blk 1#32).busy = true := by decide +kernel

/-- A key as long as the buffer, and the empty key. -/
theorem witness_LoadKeyPutsTheKeyInPlace :
    blk.params.wf ∧ blk.busy = false ∧ (List.replicate 8 1#8).length ≤ blk.params.keyMaxLen.toNat ∧
      ([] : List Byte).length ≤ blk.params.keyMaxLen.toNat := by decide

/-- Idle, and busy with the host's turn scheduled. -/
theorem witness_PollWaitsForTheEngine :
    (nextTurn (hosted blk [.poll] []) = .host ∧ (hosted blk [.poll] []).env.script = .poll :: []) ∧
      nextTurn (hosted { blk with inFlight := some 1#32 } [.poll] [.host]) = .host ∧
      (hosted { blk with inFlight := some 1#32 } [.poll] [.host]).busy = true := by decide

/-- Capacity 0 and -5 with any error rate; an error rate that is a NaN with any capacity. -/
theorem witness_NewRejectsBadArguments :
    (0#32 : BitVec 32).toInt < 1 ∧ (0xFFFFFFFB#32 : BitVec 32).toInt < 1 ∧
      ¬ ∃ u, F64.ofBits 0x7ff8000000000000#64 = .fin false u ∧ 0 < u ∧ u < 2 ^ 1074 := by
  refine ⟨by decide, by decide, ?_⟩
  rintro ⟨u, h, -⟩
  have hn : F64.ofBits 0x7ff8000000000000#64 = .nan := by decide +kernel
  rw [hn] at h
  cases h

/-- Z1. -/
theorem witness_NewGivesLegalOperands :
    newSizing (fun _ => 0xc0126bb1bbb55515#64) 20#32 0x3f847ae147ae147b#64 = .filter 191#32 7#32 := by decide +kernel

/-- Capacities 20 and 21 at one error rate; the error rates 0.01 and 0.5 at one capacity, with a constant, so monotone,
LN64. -/
theorem witness_SizingIsMonotone :
    let ln : BitVec 64 → BitVec 64 := fun _ => 0xc0126bb1bbb55515#64
    (20#32 : BitVec 32).toInt ≤ (21#32 : BitVec 32).toInt ∧ newSizing ln 20#32 0x3f847ae147ae147b#64 = .filter 191#32 7#32 ∧
      newSizing ln 21#32 0x3f847ae147ae147b#64 = .filter 201#32 7#32 ∧
      newSizing ln 20#32 0x3fe0000000000000#64 = .filter 191#32 7#32 ∧
      (∀ x y i j, (F64.ofBits (ln x)).signedUnits = some i → (F64.ofBits (ln y)).signedUnits = some j → i ≤ j) := by
  refine ⟨by decide, by decide +kernel, by decide +kernel, by decide +kernel, fun x y i j hx hy => ?_⟩
  exact le_of_eq (Option.some.inj (hx.symm.trans hy))

end Sys2Proof.Tests
end

section
/-! SUPPORT. What a decoded word is, what a command, a turn and a step leave of the state, and a run as an
induction (spec 10, 30 R67, 70 R185). -/

namespace Sys2Proof.Machine

variable {s t : State} {c : Word} {i : Instr} {n : Nat}

theorem commandRsv_toNat (c : Word) : (commandRsv c).toNat = c.toNat / 16 := by
  have := c.isLt
  rw [commandRsv, BitVec.extractLsb'_toNat, Nat.shiftRight_eq_div_pow]
  omega

theorem commandOp_toNat (c : Word) : (commandOp c).toNat = c.toNat % 16 := by
  rw [commandOp, BitVec.extractLsb'_toNat, Nat.shiftRight_zero]

/-- Only a command's own word decodes to it (30 R66, R67). -/
theorem eq_encode_of_decode (h : decode c = .ok i) : c = encode i := by
  unfold decode at h
  split at h
  · cases h
  · next hrsv =>
    have hhigh : c.toNat / 16 = 0 := by
      rw [← commandRsv_toNat, not_not.1 hrsv]; rfl
    have hlow : c.toNat % 16 = (encode i).toNat := by
      rw [← commandOp_toNat]
      split at h <;> cases h <;> assumption
    exact BitVec.eq_of_toNat_eq (by omega)

/-! ### Commands -/

/-- Everything a command word can answer (70 R185). -/
theorem runCommand_cases (h : runCommand c s = .next t) :
    (∃ e, decode c = .error e ∧ t = raiseError .illegalCmd s) ∨ ∃ i, decode c = .ok i ∧ exec i s = .next t := by
  cases hd : decode c with
  | error e =>
    rw [runCommand_error hd] at h
    injection h with h
    exact .inl ⟨e, rfl, h.symm⟩
  | ok i =>
    rw [runCommand_ok hd] at h
    exact .inr ⟨i, rfl, h⟩

/-- What an error leaves (60 R164). -/
theorem raiseError_eq (code : ErrCode) (s : State) :
    raiseError code s = { s with err := code, fault := faultAfter code s.fault, inFlight := none } := rfl

/-- The fields a command can write (10 R30 to R32, R38): every other is as before. -/
theorem exec_frame (h : exec i s = .next t) :
    ∃ ready hit fault err result bc hc bits r, t = { s with
      inFlight := none, ready := ready, hit := hit, fault := fault, err := err, result := result,
      bitCount := bc, hashCount := hc, bits := bits, scratch := r } := by
  rcases exec_cases h with ⟨code, -, -, rfl, -⟩ | ⟨key, -, -, -, rfl⟩ | ⟨-, -, rfl⟩ |
    ⟨key, -, -, -, -, -, rfl⟩ | ⟨key, -, -, -, -, -, rfl⟩
  · exact ⟨_, _, _, _, _, _, _, _, _, raiseError_eq code s⟩
  · obtain ⟨r, h⟩ := hashEffect_eq s key
    exact ⟨_, _, _, _, _, _, _, _, _, h⟩
  · exact ⟨_, _, _, _, _, _, _, _, _, rfl⟩
  · obtain ⟨r, h⟩ := checkEffect_eq s key
    exact ⟨_, _, _, _, _, _, _, _, _, h⟩
  · obtain ⟨m, r, h, -⟩ := addEffect_eq s key
    exact ⟨_, _, _, _, _, _, _, _, _, h⟩

/-- Only an accepted CONFIG writes READY, BIT_COUNT or HASH_COUNT (10 R24, R34, R35). -/
theorem exec_filter (h : exec i s = .next t) :
    (i = .config ∧ configAccepts s = true ∧ t = configEffect s) ∨
      (t.ready = s.ready ∧ t.bitCount = s.bitCount ∧ t.hashCount = s.hashCount) := by
  rcases exec_cases h with ⟨code, -, -, rfl, -⟩ | ⟨key, -, -, -, rfl⟩ | hconfig |
    ⟨key, -, -, -, -, -, rfl⟩ | ⟨key, -, -, -, -, -, rfl⟩
  · exact .inr ⟨rfl, rfl, rfl⟩
  · exact .inr ⟨rfl, rfl, rfl⟩
  · exact .inl hconfig
  · exact .inr ⟨rfl, rfl, rfl⟩
  · exact .inr ⟨rfl, rfl, rfl⟩

/-! ### Steps and runs -/

/-- A host's turn leaves the parameters, the filter and the reset counter. -/
theorem hostTurn_filter (s : State) :
    (hostTurn s).params = s.params ∧ (hostTurn s).ready = s.ready ∧ (hostTurn s).bitCount = s.bitCount ∧
      (hostTurn s).hashCount = s.hashCount ∧ (hostTurn s).bits = s.bits ∧ (hostTurn s).epoch = s.epoch := by
  obtain ⟨f, o, a0, a1, kl, k, e, h, -⟩ := hostTurn_keeps s
  rw [h]
  exact ⟨rfl, rfl, rfl, rfl, rfl, rfl⟩

/-- A step that answers is a reset, completes a successful CONFIG, which leaves READY = 1, or leaves READY, BIT_COUNT
and HASH_COUNT (10 R24, R34, R35, 70 R182). -/
theorem step_filter (h : step s = .next t) :
    nextTurn s = .reset ∨ (InstallsFilter s ∧ t.ready = true) ∨
      (t.ready = s.ready ∧ t.bitCount = s.bitCount ∧ t.hashCount = s.hashCount) := by
  rcases step_cases h with ⟨-, rfl⟩ | ⟨hturn, h⟩ | ⟨hturn, -⟩
  · obtain ⟨-, hr, hbc, hhc, -, -⟩ := hostTurn_filter (takeTurn s)
    exact .inr (.inr ⟨hr, hbc, hhc⟩)
  · rcases engineTurn_cases h with ⟨-, rfl⟩ | ⟨c, e, -, -, rfl⟩ | ⟨c, i, hc, hd, h⟩
    · exact .inr (.inr ⟨rfl, rfl, rfl⟩)
    · exact .inr (.inr ⟨rfl, rfl, rfl⟩)
    · rcases exec_filter h with ⟨rfl, ha, rfl⟩ | hsame
      · exact .inr (.inl ⟨⟨hturn, hc.trans (congrArg some (eq_encode_of_decode hd)), ha⟩, rfl⟩)
      · exact .inr (.inr hsame)
  · exact .inl hturn

/-- No step changes the parameters (00 R6, 10 R36, R37). -/
theorem step_params (h : step s = .next t) : t.params = s.params := by
  rcases step_cases h with ⟨-, rfl⟩ | ⟨-, h⟩ | ⟨-, rfl⟩
  · exact (hostTurn_filter (takeTurn s)).1
  · rcases engineTurn_cases h with ⟨-, rfl⟩ | ⟨c, e, -, -, rfl⟩ | ⟨c, i, -, -, h⟩
    · rfl
    · rfl
    · obtain ⟨_, _, _, _, _, _, _, _, _, rfl⟩ := exec_frame h
      rfl
  · rfl

/-- What holds at the start of a run and is kept by every step holds at its end. -/
theorem core_run_keeps {P : State → Prop} (hkeep : ∀ s t, P s → step s = .next t → P t) (hs : P s)
    (h : core.run n s = .next t) : P t := by
  induction n generalizing s with
  | zero =>
    rw [core_run_zero] at h
    injection h with h
    exact h ▸ hs
  | succ n ih =>
    cases hstep : step s with
    | next u => exact ih (hkeep s u hs hstep) (core_run_next hstep ▸ h)
    | fault r => rw [core_run_fault hstep] at h; cases h
    | refused r => rw [core_run_refused hstep] at h; cases h

end Sys2Proof.Machine
end

section
/-! SUPPORT. The invariant of the block (10 R44): what it looks at, and that reset meets it and every turn keeps it. -/

namespace Sys2Proof.Machine

variable {s t : State} {p : Params} {key : List Byte}

/-- The fields of the state that the invariant looks at. -/
def State.invView (s : State) : Params × Memory × Memory × Bool × Word × Word × Nat :=
  (s.params, s.key, s.bits, s.ready, s.bitCount, s.hashCount, s.epoch)

/-- The invariant is about these fields alone. -/
theorem BlockInv.congr (h : BlockInv s) (hv : t.invView = s.invView) : BlockInv t := by
  cases s
  cases t
  simp only [State.invView, Prod.mk.injEq] at hv
  obtain ⟨rfl, rfl, rfl, rfl, rfl, rfl, rfl⟩ := hv
  exact ⟨h.params, h.keyWf, h.keyBelow, h.bitsWf, h.bitsBelow, h.readyFilter, h.notReady, h.padding⟩

/-- A block with no filter and nothing in KEY and BITS meets the invariant (10 R43). -/
theorem blockInv_of_empty (hp : s.params.wf) (hkey : s.key = []) (hbits : s.bits = []) (hready : s.ready = false)
    (hbc : s.bitCount = 0#32) (hhc : s.hashCount = 0#32) : BlockInv s where
  params := hp
  keyWf := by simp [hkey]
  keyBelow := by simp [hkey]
  bitsWf := by simp [hbits]
  bitsBelow := by simp [hbits]
  readyFilter := by simp [hready]
  notReady := fun _ => ⟨hbc, hhc⟩
  padding := by simp [hready]

theorem blockInv_resetWith (hp : p.wf) : BlockInv (State.resetWith p) :=
  blockInv_of_empty hp rfl rfl rfl rfl rfl

theorem blockInv_resetBlock (hp : s.params.wf) : BlockInv (resetBlock s) :=
  blockInv_of_empty hp rfl rfl rfl rfl rfl

/-- A turn of the host writes KEY alone of what the invariant looks at, and keeps its form and its bounds. -/
theorem blockInv_hostTurn (h : BlockInv s) : BlockInv (hostTurn s) := by
  obtain ⟨f, o, a0, a1, kl, k, e, heq, -, -, hwf, hbelow⟩ := hostTurn_keeps s
  rw [heq]
  exact ⟨h.params, hwf h.keyWf, hbelow h.keyBelow, h.bitsWf, h.bitsBelow, h.readyFilter, h.notReady, h.padding⟩

/-- The bytes of a filter that MAX_BITS allows are bytes of the array (10 R39, 42 R105). -/
theorem byteCount_le_bitsCapacity {bc : Word} (h : bc.toNat ≤ p.maxBits.toNat) : byteCount bc ≤ bitsCapacity p := by
  rw [bitsCapacity, byteCount_eq, byteCount_eq]
  omega

/-- An accepted CONFIG zeroes the bytes in use, so each is defined and every padding bit is 0 (42 R102). -/
theorem blockInv_configEffect (h : BlockInv s) (ha : configAccepts s = true) : BlockInv (configEffect s) := by
  obtain ⟨hpos, hmax, hhashes⟩ := configAccepts_iff.1 ha
  exact {
    params := h.params
    keyWf := h.keyWf
    keyBelow := h.keyBelow
    bitsWf := Memory.zeroFill_wf h.bitsWf
    bitsBelow := Memory.zeroFill_below h.bitsBelow (byteCount_le_bitsCapacity hmax)
    readyFilter := fun _ => ⟨hpos, hmax, hhashes, fun j hj => by
      rw [configEffect_bitCount] at hj
      simp [Memory.read_zeroFill, hj]⟩
    notReady := fun hr => by simp at hr
    padding := fun _ _ hidx _ => bitRead_zeroFill hidx }

/-- ADD sets bits below BIT_COUNT alone and leaves every byte that was defined so (44 R138). -/
theorem blockInv_addEffect (h : BlockInv s) (hr : s.ready = true) (hbc : s.bitCount.toNat ≠ 0) :
    BlockInv (addEffect s key) := by
  obtain ⟨hpos, hmax, hhashes, hdefined⟩ := h.readyFilter hr
  obtain ⟨m, r, heq, hbit, -, -, hkeeps⟩ := addEffect_eq s key
  obtain ⟨hwf, hbelow, hlisted⟩ := hkeeps hbc
  have hcap : (s.bitCount.toNat + 7) / 8 ≤ bitsCapacity s.params :=
    byteCount_eq s.bitCount ▸ byteCount_le_bitsCapacity hmax
  rw [heq]
  refine ⟨h.params, h.keyWf, h.keyBelow, hwf h.bitsWf, hbelow _ hcap h.bitsBelow,
    fun _ => ⟨hpos, hmax, hhashes, fun j hj => hlisted j (hdefined j hj)⟩, h.notReady, fun _ idx hidx hpad => ?_⟩
  have hunprobed : ¬ ∃ t < s.hashCount.toNat,
      probeIndex (probeA key) (probeB key) s.bitCount.toNat t = idx := by
    rintro ⟨t, -, rfl⟩
    exact absurd (probeIndex_lt hpos) (not_lt.2 hpad)
  rw [hbit, h.padding hr idx hidx hpad, decide_eq_false hunprobed, Bool.or_false]

theorem blockInv_exec {i : Instr} (h : BlockInv s) (he : exec i s = .next t) : BlockInv t := by
  rcases exec_cases he with ⟨code, -, -, rfl, -⟩ | ⟨key, -, -, -, rfl⟩ | ⟨-, ha, rfl⟩ |
    ⟨key, -, -, -, -, -, rfl⟩ | ⟨key, -, hr, -, -, hbc, rfl⟩
  · exact h.congr rfl
  · exact h.congr rfl
  · exact blockInv_configEffect h ha
  · exact h.congr rfl
  · exact blockInv_addEffect h hr hbc

theorem blockInv_engineTurn (h : BlockInv s) (he : engineTurn s = .next t) : BlockInv t := by
  rcases engineTurn_cases he with ⟨-, rfl⟩ | ⟨c, e, -, -, rfl⟩ | ⟨c, i, -, -, he⟩
  · exact h
  · exact h.congr rfl
  · exact blockInv_exec h he

theorem blockInv_step (h : BlockInv s) (hs : step s = .next t) : BlockInv t := by
  have h : BlockInv (takeTurn s) := h.congr rfl
  rcases step_cases hs with ⟨-, rfl⟩ | ⟨-, he⟩ | ⟨-, rfl⟩
  · exact blockInv_hostTurn h
  · exact blockInv_engineTurn h he
  · exact blockInv_resetBlock h.params

/-- Settles O3: each turn keeps the invariant, the Engine's command by command. -/
theorem everyStepKeepsTheInvariant : Obligations.EveryStepKeepsTheInvariant :=
  fun _ _ h hs => blockInv_step h hs

/-- Settles O2: a block right after reset has no filter, and nothing in KEY or BITS. -/
theorem resetMeetsTheInvariant : Obligations.ResetMeetsTheInvariant :=
  ⟨blockInv_resetWith (by decide), fun _ hp => blockInv_resetWith hp⟩

/-- Settles O4: the invariant and the parameters hold along every run from reset. -/
theorem idleStatesKeepTheFilterInvariants : Obligations.IdleStatesKeepTheFilterInvariants := by
  intro p e n t hp hrun _
  have hstart : BlockInv { State.resetWith p with env := e } := (blockInv_resetWith hp).congr rfl
  have h : BlockInv t := core_run_keeps (fun _ _ h hs => blockInv_step h hs) hstart hrun
  have hparams : t.params = p :=
    core_run_keeps (P := fun s => s.params = p) (fun _ _ h hs => (step_params hs).trans h) rfl hrun
  rw [← hparams]
  rw [← byteCount_eq]
  exact ⟨h.readyFilter, h.notReady, fun hr idx hpad hidx => h.padding hr idx hidx hpad⟩

/-- Settles O37, by the three cases of `step_filter`. -/
theorem filterRegistersChangeOnlyByConfigAndReset : Obligations.FilterRegistersChangeOnlyByConfigAndReset := by
  intro s t hs
  rcases step_filter hs with hreset | ⟨hinstalls, hready⟩ | ⟨hr, hbc, hhc⟩
  · exact ⟨fun _ => .inl hreset, fun _ _ => hreset⟩
  · exact ⟨fun _ => .inr hinstalls, fun _ hfalls => by rw [hready] at hfalls; cases hfalls⟩
  · exact ⟨fun hne => by simp [hr, hbc, hhc] at hne, fun hup hfalls => by rw [hr, hup] at hfalls; cases hfalls⟩

/-- Settles O38: an illegal word by `raiseError`, a legal one by the frame of its command. -/
theorem commandsLeaveTheirOperands : Obligations.CommandsLeaveTheirOperands := by
  intro c s t h
  rcases runCommand_cases h with ⟨e, -, rfl⟩ | ⟨i, -, he⟩
  · exact ⟨rfl, rfl, rfl, fun _ => rfl, rfl, rfl, rfl, rfl⟩
  · obtain ⟨_, _, _, _, _, _, _, _, _, rfl⟩ := exec_frame he
    exact ⟨rfl, rfl, rfl, fun _ => rfl, rfl, rfl, rfl, rfl⟩

end Sys2Proof.Machine
end

section
/-! SUPPORT. The hidden registers (10 R40): no turn's outcome depends on them, but for the hidden registers
themselves. -/

namespace Sys2Proof.Machine

variable {s t : State} {key : List Byte} {o o' : Host.Outcome State Fault Refusal}

/-- Two outcomes are alike but for the hidden registers. -/
def AlikeOutcomes (o o' : Host.Outcome State Fault Refusal) : Prop := mapNext forgetScratch o = mapNext forgetScratch o'

theorem alikeOutcomes_next (h : forgetScratch s = forgetScratch t) : AlikeOutcomes (.next s) (.next t) :=
  congrArg Host.Outcome.next h

/-- States alike but for the hidden registers differ in them alone. -/
theorem eq_of_forgetScratch_eq (h : forgetScratch s = forgetScratch t) : s = { t with scratch := s.scratch } := by
  have hs : s = { forgetScratch s with scratch := s.scratch } := rfl
  rw [h] at hs
  exact hs

/-- Alike outcomes: both are a next state, alike but for the hidden registers, or they are the same stop. -/
theorem AlikeOutcomes.cases (h : AlikeOutcomes o o') :
    (∃ s t, o = .next s ∧ o' = .next t ∧ s = { t with scratch := s.scratch }) ∨
      (∃ f, o = .fault f ∧ o' = .fault f) ∨ ∃ f, o = .refused f ∧ o' = .refused f := by
  cases o with
  | next s =>
    cases o' with
    | next t => exact .inl ⟨s, t, rfl, rfl, eq_of_forgetScratch_eq (Host.Outcome.next.inj h)⟩
    | fault f => cases h
    | refused f => cases h
  | fault f =>
    cases o' with
    | next t => cases h
    | fault f' => cases h; exact .inr (.inl ⟨f, rfl, rfl⟩)
    | refused f' => cases h
  | refused f =>
    cases o' with
    | next t => cases h
    | fault f' => cases h
    | refused f' => cases h; exact .inr (.inr ⟨f, rfl, rfl⟩)

/-! ### The host's turn -/

theorem readLanes_scratch (s : State) (r : Scratch) (j n : Nat) :
    readLanes { s with scratch := r } j n = readLanes s j n := by
  induction n with
  | zero => rfl
  | succ n ih => rw [readLanes, readLanes, ih]; rfl

theorem readReg_scratch (s : State) (r : Scratch) (x : Reg) : readReg { s with scratch := r } x = readReg s x := by
  cases x <;> rfl

theorem writeReg_scratch (s : State) (r : Scratch) (x : Reg) (data : Word) :
    writeReg { s with scratch := r } x data = { writeReg s x data with scratch := r } := by
  cases x <;> rfl

theorem hostRead_scratch (s : State) (r : Scratch) (w : Width) (off : Word) :
    hostRead { s with scratch := r } w off = hostRead s w off := by
  unfold hostRead
  cases targetOf s.params w off.toNat with
  | reg x => exact readReg_scratch s r x
  | key j => exact readLanes_scratch s r j w.bytes
  | nothing => rfl

theorem hostWrite_scratch (s : State) (r : Scratch) (w : Width) (off data : Word) :
    hostWrite { s with scratch := r } w off data = { hostWrite s w off data with scratch := r } := by
  cases hb : s.busy with
  | true => rw [hostWrite_busy hb, hostWrite_busy (s := { s with scratch := r }) hb]
  | false =>
    have hb' : ({ s with scratch := r } : State).busy = false := hb
    simp only [hostWrite, hb, hb', Bool.false_eq_true, if_false]
    cases targetOf s.params w off.toNat with
    | reg x => exact writeReg_scratch s r x data
    | key j => rfl
    | nothing => rfl

theorem runStmt_scratch (s : State) (r : Scratch) (x : Stmt) (rest : List Stmt) :
    runStmt { s with scratch := r } x rest = { runStmt s x rest with scratch := r } := by
  cases x with
  | wr w off data => exact hostWrite_scratch (withScript s rest) r w off data
  | rd w off =>
    simp only [runStmt, hostRead_scratch]
    rfl
  | poll =>
    have hb : ({ s with scratch := r } : State).busy = s.busy := rfl
    simp only [runStmt, hostRead_scratch, hb]
    cases s.busy <;> rfl

theorem hostTurn_scratch (s : State) (r : Scratch) :
    hostTurn { s with scratch := r } = { hostTurn s with scratch := r } := by
  unfold hostTurn
  cases s.env.script with
  | nil => rfl
  | cons x rest => exact runStmt_scratch s r x rest

/-! ### The Engine's turn -/

theorem hashEffect_forget (s : State) (r : Scratch) (key : List Byte) :
    forgetScratch (hashEffect { s with scratch := r } key) = forgetScratch (hashEffect s key) := by
  obtain ⟨_, h⟩ := hashEffect_eq s key
  obtain ⟨_, h'⟩ := hashEffect_eq { s with scratch := r } key
  rw [h, h']
  rfl

theorem checkEffect_forget (s : State) (r : Scratch) (key : List Byte) :
    forgetScratch (checkEffect { s with scratch := r } key) = forgetScratch (checkEffect s key) := by
  obtain ⟨_, h⟩ := checkEffect_eq s key
  obtain ⟨_, h'⟩ := checkEffect_eq { s with scratch := r } key
  rw [h, h']
  rfl

@[simp] theorem prbStart_i (r : Scratch) : (prbStart key r).i = 0 := rfl

@[simp] theorem prbStart_hits (r : Scratch) : (prbStart key r).hits = 0 := rfl

/-- The probes of an ADD start from PRB's own a, b, i and hit count, whatever the registers held (43 R130). -/
theorem addProbes_congr (epoch : Nat) (bits : Memory) (bc n : Nat) (key : List Byte) (r r' : Scratch) :
    (addProbes epoch bits bc n key r).1 = (addProbes epoch bits bc n key r').1 ∧
      (addProbes epoch bits bc n key r).2.hits = (addProbes epoch bits bc n key r').2.hits := by
  obtain ⟨hbits, -, -, -, hhits⟩ := addProbe_iterate_congr (epoch := epoch) (bc := bc)
    (x := (bits, prbStart key r)) (y := (bits, prbStart key r')) rfl
    (prbStart_a.trans prbStart_a.symm) (prbStart_b.trans prbStart_b.symm) (by simp) (by simp) n
  exact ⟨hbits, hhits⟩

/-- What an ADD shows of its probes: the array and whether each was a hit. -/
theorem addEffect_shows (s : State) (r : Scratch) (key : List Byte) :
    forgetScratch (addEffect { s with scratch := r } key) =
      forgetScratch (deliver
        ((addProbes s.epoch s.bits s.bitCount.toNat s.hashCount.toNat key r).2.hits == s.hashCount.toNat)
        { s with bits := (addProbes s.epoch s.bits s.bitCount.toNat s.hashCount.toNat key r).1 }) := rfl

theorem addEffect_forget (s : State) (r : Scratch) (key : List Byte) :
    forgetScratch (addEffect { s with scratch := r } key) = forgetScratch (addEffect s key) := by
  obtain ⟨hbits, hhits⟩ := addProbes_congr s.epoch s.bits s.bitCount.toNat s.hashCount.toNat key r s.scratch
  rw [addEffect_shows, hbits, hhits, ← addEffect_shows]

theorem withKey_alike {f g : List Byte → Host.Outcome State Fault Refusal} (r : Scratch)
    (h : ∀ key, AlikeOutcomes (f key) (g key)) : AlikeOutcomes (withKey { s with scratch := r } f) (withKey s g) := by
  have hover : ({ s with scratch := r } : State).keyOverlong = s.keyOverlong := rfl
  have hkey : ({ s with scratch := r } : State).keyBytes = s.keyBytes := rfl
  unfold withKey
  rw [hover, hkey]
  split
  · exact alikeOutcomes_next rfl
  · cases s.keyBytes with
    | error j => rfl
    | ok key => exact h key

theorem withFilterAndKey_alike {f g : List Byte → State} (r : Scratch)
    (h : ∀ key, forgetScratch (f key) = forgetScratch (g key)) :
    AlikeOutcomes (withFilterAndKey { s with scratch := r } f) (withFilterAndKey s g) := by
  unfold withFilterAndKey
  simp only
  split
  · refine withKey_alike r fun key => ?_
    split
    · rfl
    · exact alikeOutcomes_next (h key)
  · exact alikeOutcomes_next rfl

theorem execConfig_alike (s : State) (r : Scratch) :
    AlikeOutcomes (execConfig { s with scratch := r }) (execConfig s) := by
  have ha : configAccepts { s with scratch := r } = configAccepts s := rfl
  unfold execConfig
  rw [ha]
  split <;> exact alikeOutcomes_next rfl

theorem exec_alike (i : Instr) (s : State) (r : Scratch) :
    AlikeOutcomes (exec i { s with scratch := r }) (exec i s) := by
  cases i with
  | hash => exact withKey_alike r fun key => alikeOutcomes_next (hashEffect_forget s r key)
  | config => exact execConfig_alike s r
  | check => exact withFilterAndKey_alike r (checkEffect_forget s r)
  | add => exact withFilterAndKey_alike r (addEffect_forget s r)

theorem runCommand_alike (c : Word) (s : State) (r : Scratch) :
    AlikeOutcomes (runCommand c { s with scratch := r }) (runCommand c s) := by
  cases hd : decode c with
  | error e =>
    rw [runCommand_error hd, runCommand_error hd]
    exact alikeOutcomes_next rfl
  | ok i =>
    rw [runCommand_ok hd, runCommand_ok hd]
    exact exec_alike i s r

theorem engineTurn_alike (s : State) (r : Scratch) :
    AlikeOutcomes (engineTurn { s with scratch := r }) (engineTurn s) := by
  rcases Option.eq_none_or_eq_some s.inFlight with hc | ⟨c, hc⟩
  · rw [engineTurn_idle hc, engineTurn_idle (s := { s with scratch := r }) hc]
    exact alikeOutcomes_next rfl
  · rw [engineTurn_busy hc, engineTurn_busy (s := { s with scratch := r }) hc]
    exact runCommand_alike c s r

/-! ### Steps and runs -/

theorem step_alike (s : State) (r : Scratch) : AlikeOutcomes (step { s with scratch := r }) (step s) := by
  have hturn : nextTurn { s with scratch := r } = nextTurn s := rfl
  have htake : takeTurn { s with scratch := r } = { takeTurn s with scratch := r } := rfl
  unfold step
  rw [hturn, htake]
  cases nextTurn s with
  | host =>
    rw [runTurn_host, runTurn_host, hostTurn_scratch]
    exact alikeOutcomes_next rfl
  | engine => exact engineTurn_alike (takeTurn s) r
  | reset => exact alikeOutcomes_next rfl

theorem core_run_alike (n : Nat) (s : State) (r : Scratch) :
    AlikeOutcomes (core.run n { s with scratch := r }) (core.run n s) := by
  induction n generalizing s r with
  | zero => exact alikeOutcomes_next rfl
  | succ n ih =>
    rcases (step_alike s r).cases with ⟨t', t, ht', ht, heq⟩ | ⟨f, hf', hf⟩ | ⟨f, hf', hf⟩
    · rw [core_run_next ht', core_run_next ht, heq]
      exact ih t t'.scratch
    · rw [core_run_fault hf', core_run_fault hf]
      rfl
    · rw [core_run_refused hf', core_run_refused hf]
      rfl

/-- Settles O39, by induction on the number of steps. -/
theorem hiddenRegistersNeverShow : Obligations.HiddenRegistersNeverShow :=
  core_run_alike

end Sys2Proof.Machine
end

section
/-! SUPPORT. The reset values and the host's registers (10 R20, R29, R43). -/

namespace Sys2Proof.Machine

/-- The block after any reset (10 R43), whatever the counter of resets and the host side. -/
theorem resetValues_resetWith (p : Params) (n : Nat) (e : Env) :
    ResetValues { State.resetWith p with epoch := n, env := e } := by
  have hstatus : ({ State.resetWith p with epoch := n, env := e } : State).statusWord = 0#32 := by
    simp only [State.statusWord, State.busy, State.resetWith]
    decide
  exact ⟨rfl, rfl, rfl, rfl, rfl, rfl, hstatus, rfl, rfl, rfl, rfl, rfl, rfl, fun _ => rfl, fun _ => rfl⟩

/-- Settles O1: a reset turn answers `resetBlock`, which is `State.resetWith` but for the counter and the host side. -/
theorem resetGivesEveryRegisterItsValue : Obligations.ResetGivesEveryRegisterItsValue := by
  refine ⟨resetValues_resetWith Config.defaultParams 0 Env.empty, fun s hturn => ?_⟩
  refine ⟨resetBlock (takeTurn s), ?_, resetValues_resetWith s.params _ _, rfl, fun c => ?_⟩
  · rw [step, hturn, runTurn_reset]
  · exact hostWrite_offset rfl .cmd c

/-- Settles O45, register by register. -/
theorem registerMap : Obligations.RegisterMap := by
  intro s d
  refine ⟨⟨hostRead_offset s .cmd, hostRead_offset s .status, hostRead_offset s .arg0, hostRead_offset s .arg1,
    hostRead_offset s .keyLen, hostRead_offset s .result, hostRead_offset s .bitCount, hostRead_offset s .hashCount,
    hostRead_offset s .capMaxBits, hostRead_offset s .capKeyMax⟩, fun hidle => ?_⟩
  have hwrite := fun r => hostWrite_offset hidle r d
  refine ⟨hwrite .arg0, hwrite .arg1, hwrite .keyLen, ?_⟩
  simp only [List.forall_mem_cons]
  exact ⟨hwrite .status, hwrite .result, hwrite .bitCount, hwrite .hashCount, hwrite .capMaxBits,
    hwrite .capKeyMax, List.forall_mem_nil _⟩

/-- The fields of STATUS below the error code, bit by bit (10 R22). -/
theorem statusWord_flags (s : State) :
    s.statusWord.getLsbD 0 = s.busy ∧ s.statusWord.getLsbD 1 = s.ready ∧ s.statusWord.getLsbD 2 = s.hit ∧
      s.statusWord.getLsbD 3 = s.fault ∧ s.statusWord.getLsbD 4 = s.overrun ∧
      s.statusWord.extractLsb' 5 3 = 0#3 := by
  refine ⟨?busy, ?ready, ?hit, ?fault, ?overrun, BitVec.eq_of_getLsbD_eq fun i hi => ?reserved⟩
  case reserved =>
    simp only [BitVec.getLsbD_extractLsb', State.statusWord, BitVec.getLsbD_append]
    interval_cases i <;> simp
  all_goals
    simp only [State.statusWord, BitVec.getLsbD_append]
    simp

/-- From bit 8 on, STATUS is the error code below 20 zeros (10 R22). -/
theorem statusWord_getLsbD_add_eight (s : State) (i : Nat) :
    s.statusWord.getLsbD (8 + i) = (0#20 ++ s.err.code).getLsbD i := by
  rw [State.statusWord]
  iterate 6 rw [BitVec.getLsbD_append, if_neg (by omega)]
  congr 1
  omega

theorem statusWord_err (s : State) : s.statusWord.extractLsb' 8 4 = s.err.code := by
  refine BitVec.eq_of_getLsbD_eq fun i hi => ?_
  rw [BitVec.getLsbD_extractLsb', statusWord_getLsbD_add_eight, BitVec.getLsbD_append]
  simp [hi]

theorem statusWord_high (s : State) : s.statusWord.extractLsb' 12 20 = 0#20 := by
  refine BitVec.eq_of_getLsbD_eq fun i hi => ?_
  rw [BitVec.getLsbD_extractLsb', show 12 + i = 8 + (4 + i) by omega, statusWord_getLsbD_add_eight,
    BitVec.getLsbD_append]
  simp

/-- Settles O46, field by field. -/
theorem statusLayout : Obligations.StatusLayout := by
  intro s
  obtain ⟨hbusy, hready, hhit, hfault, hoverrun, hreserved⟩ := statusWord_flags s
  exact ⟨hbusy, hready, hhit, hfault, hoverrun, statusWord_err s, hreserved, statusWord_high s,
    fun d => ⟨fun hb => hostWrite_offset hb .status d, fun hb => hostWrite_busy hb _ _ d⟩⟩

end Sys2Proof.Machine
end

section
/-! SUPPORT. The host's address space (20 R47 to R52, R57): what a transaction names, and what a key-buffer
transaction, a read and a dropped transaction do. -/

namespace Sys2Proof.Machine

variable {s t : State} {p : Params} {w : Width} {r : Reg} {j : Nat}

/-! ### What a transaction names -/

theorem offset_of_atOffset {off : Nat} (h : Reg.atOffset off = some r) : off = r.offset.toNat := by
  unfold Reg.atOffset at h
  split at h <;> cases h <;> rfl

/-- A register is named by a 32-bit transaction at its own offset alone (20 R47). -/
theorem targetOf_eq_reg {off : Nat} (h : targetOf p w off = .reg r) : w = .w32 ∧ off = r.offset.toNat := by
  unfold targetOf at h
  split at h
  · next hreg =>
    cases h
    exact ⟨rfl, offset_of_atOffset hreg⟩
  · split at h <;> cases h

/-- The condition of 20 R48, on natural numbers. -/
theorem inKeyBuffer_iff {off : Nat} : inKeyBuffer p w off = true ↔
    keyBase ≤ off ∧ off % w.bytes = 0 ∧ off + w.bytes ≤ keyBase + p.keyMaxLen.toNat := by
  simp only [inKeyBuffer, Bool.and_eq_true, decide_eq_true_eq, beq_iff_eq, and_assoc]

/-- The transactions without a meaning (20 R49): outside the registers and outside the key buffer. -/
theorem targetOf_eq_nothing {off : Nat} (hreg : ¬ (w = .w32 ∧ off % 4 = 0 ∧ off < 0x28))
    (hkey : ¬ (0x1000 ≤ off ∧ off % w.bytes = 0 ∧ off + w.bytes ≤ 0x1000 + p.keyMaxLen.toNat)) :
    targetOf p w off = .nothing := by
  refine targetOf_nothing ?noRegister (Bool.eq_false_iff.2 fun h => hkey (inKeyBuffer_iff.1 h))
  by_cases hw : w = .w32
  · have hoff : ¬ (off % 4 = 0 ∧ off < 0x28) := fun h => hreg ⟨hw, h⟩
    exact .inr (atOffset_eq_none (by omega))
  · exact .inl hw

/-! ### What a transaction does, by what it names -/

theorem hostRead_key {off : Word} (h : targetOf s.params w off.toNat = .key j) :
    hostRead s w off = readLanes s j w.bytes := by
  simp only [hostRead, h]

theorem hostRead_nothing {off : Word} (h : targetOf s.params w off.toNat = .nothing) : hostRead s w off = 0#32 := by
  simp only [hostRead, h]

theorem hostWrite_key {off : Word} (hidle : s.busy = false) (h : targetOf s.params w off.toNat = .key j) (d : Word) :
    hostWrite s w off d = { s with key := writeLanes s.key j d w.bytes } := by
  simp only [hostWrite, hidle, h, Bool.false_eq_true, if_false]

theorem hostWrite_nothing {off : Word} (hidle : s.busy = false) (h : targetOf s.params w off.toNat = .nothing)
    (d : Word) : hostWrite s w off d = s := by
  simp only [hostWrite, hidle, h, Bool.false_eq_true, if_false]

/-- Settles O48: such a transaction names nothing. -/
theorem meaninglessTransactionsAreDropped : Obligations.MeaninglessTransactionsAreDropped := by
  intro s w off d hreg hkey
  have hnothing : targetOf s.params w off.toNat = .nothing := targetOf_eq_nothing hreg hkey
  exact ⟨hostRead_nothing hnothing, fun hidle => hostWrite_nothing hidle hnothing d,
    fun hbusy => hostWrite_busy hbusy w off d⟩

/-! ### The key buffer -/

/-- A byte of KEY the host reads is the byte written there (20 R48). -/
theorem hostKeyByte_of_read {v : Byte} (h : s.key.read j = some v) : hostKeyByte s j = v := by
  rw [hostKeyByte, h, Option.getD_some]

/-- Each byte a write covers holds its lane of the data (20 R48, R50). -/
theorem read_writeLanes_lane (m : Memory) (j : Nat) (d : Word) {n q : Nat} (hq : q < n) :
    (writeLanes m j d n).read (j + q) = some (d.extractLsb' (8 * q) 8) := by
  rw [read_writeLanes, if_pos (by omega), Nat.add_sub_cancel_left]

theorem read_writeLanes_outside (m : Memory) (d : Word) {n k : Nat} (hk : k < j ∨ j + n ≤ k) :
    (writeLanes m j d n).read k = m.read k := by
  rw [read_writeLanes, if_neg (by omega)]

/-- Settles O47: the transaction names its bytes, a write sets their lanes and a read puts them side by side. -/
theorem keyBufferLanes : Obligations.KeyBufferLanes := by
  intro s w j hp haligned hinside
  have htarget : targetOf s.params w (keyOffset j).toNat = .key j := targetOf_keyOffset hp haligned hinside
  rw [hostRead_key htarget]
  refine ⟨fun d hidle => ?write, fun q hq v hv => ?lane, readLanes_lt s j w.bytes w.bytes_le⟩
  case write =>
    exact ⟨writeLanes s.key j d w.bytes, hostWrite_key hidle htarget d,
      fun q hq => read_writeLanes_lane s.key j d hq, fun k hk => read_writeLanes_outside s.key d hk⟩
  case lane =>
    rw [readLanes_lane s j w.bytes q w.bytes_le hq, hostKeyByte_of_read hv]

/-! ### A host word is a block word -/

/-- A byte of a key in place is the byte KEY holds there. -/
theorem KeyIs.getD_eq {key : List Byte} {v : Byte} (h : KeyIs s key) (hj : j < key.length)
    (hv : s.key.read j = some v) : key.getD j 0#8 = v := by
  obtain ⟨-, hbytes⟩ := h
  rw [List.getD_eq_getElem?_getD, ← hbytes j hj, hv, Option.getD_some]

/-- A word whose four lanes are the key's bytes from `n` on is the block word there (41 R82). -/
theorem packWord_eq_of_lanes {key : List Byte} {n : Nat} {d : Word}
    (h : ∀ q < 4, key.getD (n + q) 0#8 = d.extractLsb' (8 * q) 8) : packWord key n = d := by
  refine BitVec.eq_of_getLsbD_eq fun k hk => ?_
  have hbit : 8 * (k / 8) + k % 8 = k := by omega
  rw [packWord_getLsbD key n k hk, h (k / 8) (by omega), BitVec.getLsbD_extractLsb', hbit]
  simp [Nat.mod_lt]

/-- A read of one key byte returns it zero-extended. -/
theorem hostRead_byte {off : Word} (h : targetOf s.params .w8 off.toNat = .key j) :
    hostRead s .w8 off = (hostKeyByte s j).setWidth 32 := by
  rw [hostRead_key h]
  simp [Width.bytes, readLanes]

/-- Settles O17: the write puts the four lanes of the word in KEY, whence HSH and a byte read take them. -/
theorem hostWordIsTheBlockWord : Obligations.HostWordIsTheBlockWord := by
  intro s q w key hp hidle hinside
  have htarget : targetOf s.params .w32 (keyOffset (4 * q)).toNat = .key (4 * q) :=
    targetOf_keyOffset hp (Nat.mul_mod_right 4 q) hinside
  have hlane : ∀ t < 4, (writeLanes s.key (4 * q) w 4).read (4 * q + t) = some (w.extractLsb' (8 * t) 8) :=
    fun t ht => read_writeLanes_lane s.key (4 * q) w ht
  rw [hostWrite_key hidle htarget]
  refine ⟨fun hkey hlen => ?blockWord, fun t ht => ?byteRead⟩
  case blockWord =>
    exact packWord_eq_of_lanes fun t ht => hkey.getD_eq (by omega) (hlane t ht)
  case byteRead =>
    have hfits : 4 * q + t + 1 ≤ s.params.keyMaxLen.toNat := by omega
    refine (hostRead_byte ?_).trans (congrArg _ (hostKeyByte_of_read (hlane t ht)))
    exact targetOf_keyOffset hp (Nat.mod_one _) hfits

/-! ### Reads and the start of a command -/

/-- Only a write to CMD turns BUSY on. -/
theorem writeReg_starts {d : Word} (hidle : s.busy = false) (h : (writeReg s r d).busy = true) : r = .cmd := by
  cases r with
  | cmd => rfl
  | status | arg0 | arg1 | keyLen | result | bitCount | hashCount | capMaxBits | capKeyMax =>
    exact absurd (hidle.symm.trans h) Bool.false_ne_true

/-- Only a 32-bit write at CMD's offset starts a command (20 R57). -/
theorem hostWrite_starts {off d : Word} (hidle : s.busy = false) (h : (hostWrite s w off d).busy = true) :
    w = .w32 ∧ off = Reg.cmd.offset := by
  cases ht : targetOf s.params w off.toNat with
  | reg r =>
    simp only [hostWrite, hidle, ht, Bool.false_eq_true, if_false] at h
    obtain ⟨hw, hoff⟩ := targetOf_eq_reg ht
    rw [writeReg_starts hidle h] at hoff
    exact ⟨hw, BitVec.eq_of_toNat_eq hoff⟩
  | key j =>
    rw [hostWrite_key hidle ht] at h
    exact absurd (hidle.symm.trans h) Bool.false_ne_true
  | nothing =>
    rw [hostWrite_nothing hidle ht] at h
    exact absurd (hidle.symm.trans h) Bool.false_ne_true

/-- A step in which the host moves is its next statement. -/
theorem step_hostStmt {x : Stmt} {rest : List Stmt} (hturn : nextTurn s = .host) (hscript : s.env.script = x :: rest)
    (h : step s = .next t) : t = runStmt (takeTurn s) x rest := by
  rw [step, hturn, runTurn_host, hostTurn, takeTurn_env, hscript] at h
  exact (Host.Outcome.next.inj h).symm

/-- Settles O44: a read turn is `record` of what the location reads as; only a write to CMD starts a command. -/
theorem readsHaveNoSideEffects : Obligations.ReadsHaveNoSideEffects := by
  refine ⟨fun s t w off rest hturn hscript hstep => ?read, fun s w off d hidle hstarts => ?start⟩
  case read =>
    have hread : hostRead (takeTurn s) w off = hostRead s w off :=
      hostRead_congr s s.overrun (takeTurn s).env w off (.inr rfl)
    rw [step_hostStmt hturn hscript hstep, runStmt, hread]
    exact ⟨rfl, rfl, rfl⟩
  case start => exact hostWrite_starts hidle hstarts

/-! ### The bit array is out of the host's reach -/

theorem readReg_withBits (s : State) (m : Memory) (r : Reg) : readReg { s with bits := m } r = readReg s r := by
  cases r <;> rfl

theorem readLanes_withBits (s : State) (m : Memory) (j n : Nat) :
    readLanes { s with bits := m } j n = readLanes s j n := by
  induction n with
  | zero => rfl
  | succ n ih =>
    rw [readLanes, readLanes, ih]
    rfl

theorem hostRead_withBits (s : State) (m : Memory) (w : Width) (off : Word) :
    hostRead { s with bits := m } w off = hostRead s w off := by
  unfold hostRead
  cases targetOf s.params w off.toNat with
  | reg r => exact readReg_withBits s m r
  | key j => exact readLanes_withBits s m j w.bytes
  | nothing => rfl

theorem writeReg_withBits (s : State) (m : Memory) (r : Reg) (d : Word) :
    writeReg { s with bits := m } r d = { writeReg s r d with bits := m } := by
  cases r <;> rfl

/-- A write does the same whatever BITS holds, and keeps it (20 R52). -/
theorem hostWrite_withBits (s : State) (m : Memory) (w : Width) (off d : Word) :
    hostWrite { s with bits := m } w off d = { hostWrite s w off d with bits := m } := by
  have hb : ({ s with bits := m } : State).busy = s.busy := rfl
  unfold hostWrite
  rw [hb]
  cases s.busy with
  | true => rfl
  | false =>
    cases targetOf s.params w off.toNat with
    | reg r => exact writeReg_withBits s m r d
    | key j => rfl
    | nothing => rfl

/-- Settles O49: a read and a write are the same with any bit array put in; with the state's own, the write keeps it. -/
theorem bitArrayIsOutOfTheHostsReach : Obligations.BitArrayIsOutOfTheHostsReach := by
  intro s m w off d
  have hkept := congrArg State.bits (hostWrite_withBits s s.bits w off d)
  exact ⟨hostRead_withBits s m w off, hkept, hostWrite_withBits s m w off d⟩

end Sys2Proof.Machine
end

section
/-! SUPPORT. The decoder and the encoder (30 R65 to R67, R72): each is the other's inverse on the legal words. -/

namespace Sys2Proof.Machine

variable {c : Word} {i : Instr}

@[simp] theorem decode_encode (i : Instr) : decode (encode i) = .ok i := by
  cases i <;> rfl

/-- A command is decoded from its own word alone. -/
theorem decode_eq_ok_iff : decode c = .ok i ↔ c = encode i :=
  ⟨eq_encode_of_decode, fun h => h ▸ decode_encode i⟩

theorem commandLegal_encode (i : Instr) : commandLegal (encode i) := by
  cases i <;> decide

/-- The two fields of a legal word leave four words (30 R67). -/
theorem commandLegal_iff : commandLegal c ↔
    c = encode .hash ∨ c = encode .config ∨ c = encode .check ∨ c = encode .add := by
  constructor
  · rintro ⟨hrsv, hpos, hmax⟩
    have hvalue : c.toNat = 1 ∨ c.toNat = 2 ∨ c.toNat = 3 ∨ c.toNat = 4 := by omega
    simp only [← BitVec.toNat_inj]
    exact hvalue
  · rintro (rfl | rfl | rfl | rfl) <;> exact commandLegal_encode _

/-- The words that decode are the legal ones. -/
theorem exists_decode_iff : (∃ i, decode c = .ok i) ↔ commandLegal c := by
  constructor
  · rintro ⟨i, h⟩
    exact decode_eq_ok_iff.1 h ▸ commandLegal_encode i
  · intro h
    rcases commandLegal_iff.1 h with h | h | h | h <;> exact ⟨_, decode_eq_ok_iff.2 h⟩

/-- A word that is not legal ends with ILLEGAL_CMD, and the FAULT bit stays (60 R165). -/
theorem runCommand_illegal (h : ¬ commandLegal c) (s : State) :
    runCommand c s = .next { s with inFlight := none, err := .illegalCmd } := by
  cases hd : decode c with
  | ok i => exact absurd (exists_decode_iff.1 ⟨i, hd⟩) h
  | error e => exact runCommand_error hd

theorem tableWord_toNat (w : Nat) : (tableWord 32 w).toNat = w % 2 ^ 32 := by
  rw [tableWord, BitVec.toNat_ofNat, Nat.mod_mod]

/-- Every 32-bit row of the opcode table goes to the decoder. -/
theorem decodeTableWord_eq_some_iff {w : Nat} :
    decodeTableWord 32 w = some i ↔ decode (tableWord 32 w) = .ok i := by
  rw [decodeTableWord, if_pos (Nat.mod_lt w (by decide))]
  cases decode (tableWord 32 w) <;> simp [Except.toOption]

/-- Settles O7: only its own word decodes to a command, and these four words are the legal ones. -/
theorem decodeAcceptsExactlyFourWords : Obligations.DecodeAcceptsExactlyFourWords :=
  fun _ => ⟨decode_eq_ok_iff, decode_eq_ok_iff, decode_eq_ok_iff, decode_eq_ok_iff, exists_decode_iff,
    commandLegal_iff, runCommand_illegal⟩

/-- Settles O8: decoding inverts the encoder, and a table word is the word of its low 32 bits. -/
theorem decodeAndEncodeAgree : Obligations.DecodeAndEncodeAgree := by
  refine fun i => ⟨decode_encode i, fun c => eq_encode_of_decode, fun w => ?_⟩
  rw [decodeTableWord_eq_some_iff, decode_eq_ok_iff, ← BitVec.toNat_inj, tableWord_toNat]

/-- Settles O9: the four encoded commands, and four reserved words by evaluation. -/
theorem specWordsDecode : Obligations.SpecWordsDecode :=
  ⟨decode_encode .hash, decode_encode .config, decode_encode .check, decode_encode .add,
    by decide, by decide, by decide, by decide⟩

end Sys2Proof.Machine
end

section
/-! SUPPORT. The host's scripts (30 R74, R75): what a statement does, and loadkey as a loop whose invariant is how much
of the key stands in the buffer. -/

namespace Sys2Proof.Machine

variable {s t : State} {key : List Byte} {w : Width} {d : Word} {j n : Nat}

/-! ### poll -/

theorem step_of_hostStmt {x : Stmt} {rest : List Stmt} (hturn : nextTurn s = .host)
    (hscript : s.env.script = x :: rest) : step s = .next (runStmt (takeTurn s) x rest) := by
  rw [step, hturn, runTurn_host, hostTurn, takeTurn_env, hscript]

/-- poll records STATUS, and leaves the script only where BUSY = 0. -/
theorem runStmt_poll (s : State) (rest : List Stmt) :
    runStmt s .poll rest =
      record (if s.busy then s else withScript s rest) .w32 Reg.status.offset s.statusWord := by
  rw [runStmt, hostRead_offset, readReg]

/-- Settles O51, by the two values of BUSY. -/
theorem pollWaitsForTheEngine : Obligations.PollWaitsForTheEngine := by
  intro s rest hturn hscript
  refine ⟨_, step_of_hostStmt hturn hscript, ?_⟩
  rw [runStmt_poll, takeTurn_busy]
  cases s.busy with
  | true => exact ⟨rfl, hscript, rfl⟩
  | false => exact ⟨rfl, rfl, rfl⟩

/-! ### Statements issued one after the other -/

theorem issueAll_append (s : State) (l l' : List Stmt) : issueAll s (l ++ l') = issueAll (issueAll s l) l' :=
  List.foldl_append

theorem issueAll_singleton (s : State) (x : Stmt) : issueAll s [x] = runStmt s x s.env.script := rfl

/-- A loop of statements keeps what holds before it and each of them keeps. -/
theorem issueAll_range {P : Nat → State → Prop} {f : Nat → Stmt} (h0 : P 0 s)
    (hstep : ∀ i < n, ∀ t, P i t → P (i + 1) (runStmt t (f i) t.env.script)) :
    P n (issueAll s ((List.range n).map f)) := by
  induction n with
  | zero => exact h0
  | succ n ih =>
    rw [List.range_succ, List.map_append, issueAll_append]
    exact hstep n (Nat.lt_succ_self n) _ (ih fun i hi => hstep i (Nat.lt_succ_of_lt hi))

/-- A write issued on its own is the write: the script is as before. -/
theorem runStmt_wr (s : State) (w : Width) (off d : Word) :
    runStmt s (.wr w off d) s.env.script = hostWrite s w off d := rfl

/-! ### loadkey -/

/-- `t` is `s` with the first `n` bytes of `key` in the buffer. -/
def LoadedUpTo (s : State) (key : List Byte) (n : Nat) (t : State) : Prop :=
  ∃ m, t = { s with key := m } ∧ ∀ j, m.read j = if j < n then key[j]? else s.key.read j

theorem loadedUpTo_zero (s : State) (key : List Byte) : LoadedUpTo s key 0 s :=
  ⟨s.key, rfl, fun _ => rfl⟩

/-- A write whose lanes are the key's next bytes loads them. -/
theorem LoadedUpTo.write (hp : s.params.wf) (hidle : s.busy = false) (hkey : key.length ≤ s.params.keyMaxLen.toNat)
    (haligned : j % w.bytes = 0) (hj : j + w.bytes ≤ key.length)
    (hlane : ∀ q < w.bytes, d.extractLsb' (8 * q) 8 = key.getD (j + q) 0#8) (h : LoadedUpTo s key j t) :
    LoadedUpTo s key (j + w.bytes) (runStmt t (.wr w (keyOffset j) d) t.env.script) := by
  obtain ⟨m, rfl, hm⟩ := h
  have htarget : targetOf s.params w (keyOffset j).toNat = .key j := targetOf_keyOffset hp haligned (hj.trans hkey)
  rw [runStmt_wr, hostWrite_key (s := { s with key := m }) hidle htarget]
  refine ⟨writeLanes m j d w.bytes, rfl, fun k => ?_⟩
  rw [read_writeLanes, hm]
  by_cases hnew : j ≤ k ∧ k < j + w.bytes
  · rw [if_pos hnew, if_pos hnew.2, hlane (k - j) (by omega), Nat.add_sub_cancel' hnew.1,
      List.getD_eq_getElem?_getD, List.getElem?_eq_getElem (by omega), Option.getD_some]
  · have hsame : k < j ↔ k < j + w.bytes := by omega
    simp only [if_neg hnew, hsame]

/-- Lane `q` of a block word is byte `q` of it (41 R82). -/
theorem packWord_lane (key : List Byte) (n : Nat) {q : Nat} (hq : q < 4) :
    (packWord key n).extractLsb' (8 * q) 8 = key.getD (n + q) 0#8 := by
  refine BitVec.eq_of_getLsbD_eq fun k hk => ?_
  have hdiv : (8 * q + k) / 8 = q := by omega
  have hmod : (8 * q + k) % 8 = k := by omega
  rw [BitVec.getLsbD_extractLsb', packWord_getLsbD key n _ (by omega), hdiv, hmod, decide_eq_true hk, Bool.true_and]

theorem scriptByte_lane (key : List Byte) (j : Nat) : (scriptByte key j).extractLsb' 0 8 = key.getD j 0#8 := by
  rw [scriptByte, ← BitVec.setWidth_eq_extractLsb' (by decide)]
  exact BitVec.setWidth_setWidth_of_le _ (by decide)

/-- loadkey writes the block words of 41 R82. -/
theorem loadKeyWord_eq (key : List Byte) (q : Nat) :
    loadKeyWord key q = .wr .w32 (keyOffset (4 * q)) (packWord key (4 * q)) := rfl

section
variable (hp : s.params.wf) (hidle : s.busy = false) (hkey : key.length ≤ s.params.keyMaxLen.toNat)
include hp hidle hkey

/-- The first loop of loadkey: whole words. -/
theorem loadedUpTo_words :
    LoadedUpTo s key (4 * (key.length / 4)) (issueAll s ((List.range (key.length / 4)).map (loadKeyWord key))) := by
  refine issueAll_range (P := fun q => LoadedUpTo s key (4 * q)) (loadedUpTo_zero s key) fun q hq t ht => ?_
  rw [loadKeyWord_eq]
  have hword : 4 * q + 4 ≤ key.length := by omega
  exact ht.write (w := .w32) hp hidle hkey (Nat.mul_mod_right 4 q) hword fun _ => packWord_lane key (4 * q)

/-- The second loop of loadkey: the tail byte by byte. -/
theorem loadedUpTo_bytes (h : LoadedUpTo s key j t) (hj : j + n ≤ key.length) :
    LoadedUpTo s key (j + n) (issueAll t ((List.range' j n).map (loadKeyByte key))) := by
  rw [List.range'_eq_map_range, List.map_map]
  refine issueAll_range (P := fun i => LoadedUpTo s key (j + i)) h fun i hi u hu => ?_
  have hbyte : j + i + 1 ≤ key.length := by omega
  refine hu.write (w := .w8) hp hidle hkey (Nat.mod_one _) hbyte fun q hq => ?_
  obtain rfl : q = 0 := Nat.lt_one_iff.1 hq
  exact scriptByte_lane key (j + i)

/-- Both loops load the whole key, and the last statement writes its length. -/
theorem issueAll_scriptLoadKey :
    ∃ m, issueAll s (scriptLoadKey key) = { s with key := m, keyLen := BitVec.ofNat 32 key.length } ∧
      ∀ j, m.read j = if j < key.length then key[j]? else s.key.read j := by
  have hsplit : 4 * (key.length / 4) + key.length % 4 = key.length := Nat.div_add_mod _ _
  have hloaded := loadedUpTo_bytes hp hidle hkey (loadedUpTo_words hp hidle hkey) hsplit.le
  rw [hsplit, ← issueAll_append] at hloaded
  obtain ⟨m, heq, hm⟩ := hloaded
  refine ⟨m, ?_, hm⟩
  rw [scriptLoadKey, issueAll_append, heq, issueAll_singleton, wrReg, runStmt_wr]
  exact hostWrite_offset (s := { s with key := m }) hidle .keyLen _

end

/-- Settles O50, from what both loops and the last statement leave. -/
theorem loadKeyPutsTheKeyInPlace : Obligations.LoadKeyPutsTheKeyInPlace := by
  intro s key hp hidle hkey
  obtain ⟨m, heq, hm⟩ := issueAll_scriptLoadKey hp hidle hkey
  have hlen : (BitVec.ofNat 32 key.length).toNat = key.length :=
    Nat.mod_eq_of_lt (hkey.trans_lt s.params.keyMaxLen.isLt)
  rw [heq]
  exact ⟨m, rfl, ⟨hlen, fun j hj => (hm j).trans (if_pos hj)⟩, fun j hj => (hm j).trans (if_neg hj.not_gt)⟩

end Sys2Proof.Machine
end

section
/-! SUPPORT. The function H stage by stage (41 R81 to R86, R89). -/

namespace Sys2Proof.Machine

variable {key : List Byte} {seed : Word}

/-! ### The stages -/

@[simp] theorem hashInit_zero (seed : Word) : hashInit seed 0 = seed := BitVec.xor_zero

@[simp] theorem hashBlocks_zero (key : List Byte) (h : Word) : hashBlocks key h 0 = h := rfl

theorem hashBlocks_succ (key : List Byte) (h : Word) (n : Nat) :
    hashBlocks key h (n + 1) = mixWord (hashBlocks key h n) (scrambleWord (packWord key (4 * n))) := rfl

/-- An empty tail multiplies nothing (41 R84). -/
@[simp] theorem hashTail_zero (key : List Byte) (t : Nat) (h : Word) : hashTail key t 0 h = h := rfl

/-- FMIX fixes 0. -/
@[simp] theorem hashFmix_zero : hashFmix 0#32 = 0#32 := by decide

/-- Lane `q + 1` of a word with a byte put below it is the word's lane `q`. -/
theorem append_lane_succ {n : Nat} (x : BitVec n) (y : Byte) (q : Nat) :
    (x ++ y).extractLsb' (8 * (q + 1)) 8 = x.extractLsb' (8 * q) 8 :=
  BitVec.extractLsb'_append_eq_of_le (Nat.le_add_left 8 (8 * q))

/-- Lane `q` of four bytes side by side is the `q`-th from the right. -/
theorem append_lane (b : Nat → Byte) {q : Nat} (hq : q < 4) :
    (b 3 ++ b 2 ++ b 1 ++ b 0).extractLsb' (8 * q) 8 = b q := by
  match q, hq with
  | 0, _ => exact BitVec.extractLsb'_append_eq_right
  | 1, _ =>
    rw [append_lane_succ]
    exact BitVec.extractLsb'_append_eq_right
  | 2, _ =>
    rw [append_lane_succ, append_lane_succ]
    exact BitVec.extractLsb'_append_eq_right
  | 3, _ =>
    rw [append_lane_succ, append_lane_succ, append_lane_succ]
    exact BitVec.extractLsb'_eq_self

/-- A block word is its four bytes side by side, the lowest offset in the low byte (41 R82). -/
theorem packWord_eq_append (key : List Byte) (t : Nat) :
    packWord key t = key.getD (t + 3) 0#8 ++ key.getD (t + 2) 0#8 ++ key.getD (t + 1) 0#8 ++ key.getD t 0#8 :=
  packWord_eq_of_lanes fun _ hq => (append_lane (fun q => key.getD (t + q) 0#8) hq).symm

/-! ### The whole function -/

theorem murmur_eq (key : List Byte) (seed : Word) :
    murmur key seed = hashFmix (hashTail key (4 * (key.length / 4)) (key.length % 4)
      (hashBlocks key (hashInit seed key.length) (key.length / 4))) := rfl

/-- A key of whole blocks has no tail step (41 R89 (b)). -/
theorem murmur_wholeBlocks (h : key.length % 4 = 0) :
    murmur key seed = hashFmix (hashBlocks key (hashInit seed key.length) (key.length / 4)) := by
  rw [murmur_eq, h, hashTail_zero]

/-- The empty key has no block either (41 R89 (a)). -/
theorem murmur_nil (seed : Word) : murmur [] seed = hashFmix seed := by
  rw [murmur_wholeBlocks rfl, List.length_nil, hashInit_zero, Nat.zero_div, hashBlocks_zero]

/-- Settles O13: the block word by its lanes, the other stages by the equation of each. -/
theorem hashStagesFollowTheRules : Obligations.HashStagesFollowTheRules := fun key seed h _ n t =>
  ⟨rfl, packWord_eq_append key t, rfl, rfl, hashBlocks_zero key h, hashBlocks_succ key h n, murmur_eq key seed⟩

/-- Settles O14, by the tests of the number of tail bytes in each of its four values. -/
theorem tailFallsThroughAndMultipliesOnce : Obligations.TailFallsThroughAndMultipliesOnce := fun key t h =>
  ⟨hashTail_zero key t h, rfl, rfl, rfl⟩

/-- Settles O15: both cases have no tail, and the empty key no block. -/
theorem hashOfEmptyAndWholeBlocks : Obligations.HashOfEmptyAndWholeBlocks :=
  ⟨murmur_nil, (murmur_nil 0#32).trans hashFmix_zero, fun _ _ => murmur_wholeBlocks⟩

end Sys2Proof.Machine
end

section
/-! SUPPORT. HSH's pipeline and the command HASH (41 R87, R88, R90, R91). -/

namespace Sys2Proof.Machine

variable {s t : State} {key : List Byte} {seed : Word} {r : Scratch}

/-! ### The pipeline -/

@[simp] theorem hshFinish_pos : (hshFinish key r).pos = r.pos + key.length % 4 := by
  rw [hshFinish, Scratch.setHsh_pos]

/-- HSH's pos ends at the key's length (log 9): the blocks move it over 4 bytes each, the finish over the tail. -/
@[simp] theorem hshRun_pos : (hshRun key seed r).pos = key.length := by
  have hstart : (hshInit seed key.length r).pos = 0 := hshInit_pos key.length
  obtain ⟨-, hpos⟩ := hshBlock_iterate (key := key) (key.length / 4) hstart
  rw [hshRun, hshFinish_pos, hpos, Nat.div_add_mod]

/-- Settles O16, from what HSH's run leaves in each register. -/
theorem pipelineComputesH : Obligations.PipelineComputesH := fun _ _ _ =>
  ⟨hshRun_h, hshRun_pos, hshRun_a, hshRun_b, hshRun_i, hshRun_hits, hshRun_idx⟩

/-! ### The command -/

theorem exec_hash_of_keyIs (hfits : KeyFits s) (hkey : KeyIs s key) : exec .hash s = .next (hashEffect s key) :=
  withKey_of_keyIs hfits hkey

theorem exec_hash_overlong (hfits : ¬ KeyFits s) : exec .hash s = .next (raiseError .keyTooLong s) :=
  withKey_of_overlong hfits

/-- KEY_TOO_LONG leaves the FAULT bit (60 R166). -/
theorem raiseError_keyTooLong (s : State) :
    raiseError .keyTooLong s = { s with err := .keyTooLong, inFlight := none } :=
  raiseError_eq .keyTooLong s

/-- Settles O10, by whether the key fits. -/
theorem hashWritesTheHash : Obligations.HashWritesTheHash := by
  refine fun s => ⟨fun key hfits hkey => ?fits, fun hfits => ?overlong⟩
  case fits =>
    obtain ⟨r, heffect⟩ := hashEffect_eq s key
    exact ⟨r, (exec_hash_of_keyIs hfits hkey).trans (congrArg _ heffect)⟩
  case overlong => rw [exec_hash_overlong hfits, raiseError_keyTooLong]

/-! ### Determinism -/

/-- The key of a command is KEY_LEN and the key bytes below it, nothing else of the state. -/
theorem KeyIs.congr (h : KeyIs s key) (hlen : s.keyLen = t.keyLen)
    (hbytes : ∀ j < s.keyLen.toNat, s.key.read j = t.key.read j) : KeyIs t key := by
  obtain ⟨hkeyLen, hread⟩ := h
  exact ⟨hlen ▸ hkeyLen, fun j hj => (hbytes j (hkeyLen ▸ hj)).symm.trans (hread j hj)⟩

/-- A HASH that ends without error had its key in place, and RESULT is the key's hash. -/
theorem exec_hash_result (h : exec .hash s = .next t) (hok : t.err = .ok) :
    ∃ key, KeyIs s key ∧ t.result = murmur key s.arg0 := by
  rcases execHash_cases h with ⟨-, rfl⟩ | ⟨key, -, hkey, rfl⟩
  · cases hok
  · exact ⟨key, hkey, hshRun_h⟩

/-- Settles O11: both commands read one key, and RESULT is a function of the key and the seed. -/
theorem hashIsDeterministic : Obligations.HashIsDeterministic := by
  intro s t s' t' hlen hseed hbytes hs ht hsok htok
  obtain ⟨key, hkey, hresult⟩ := exec_hash_result hs hsok
  obtain ⟨key', hkey', hresult'⟩ := exec_hash_result ht htok
  rw [hresult, hresult', hseed, (hkey.congr hlen hbytes).unique hkey']

/-! ### The filter -/

/-- `s` with the filter state READY, BIT_COUNT, HASH_COUNT and BITS put in. -/
def State.putFilter (ready : Bool) (bc hc : Word) (bits : Memory) (s : State) : State :=
  { s with ready := ready, bitCount := bc, hashCount := hc, bits := bits }

section
variable (ready : Bool) (bc hc : Word) (bits : Memory)

theorem hashEffect_putFilter (s : State) (key : List Byte) :
    hashEffect (s.putFilter ready bc hc bits) key = (hashEffect s key).putFilter ready bc hc bits := rfl

theorem raiseError_putFilter (code : ErrCode) (s : State) :
    raiseError code (s.putFilter ready bc hc bits) = (raiseError code s).putFilter ready bc hc bits := rfl

/-- The key operand is no filter state: `withKey` passes a change of the filter on from its effect to its outcome. -/
theorem withKey_putFilter {f g : List Byte → Host.Outcome State Fault Refusal}
    (h : ∀ key, f key = mapNext (State.putFilter ready bc hc bits) (g key)) :
    withKey (s.putFilter ready bc hc bits) f = mapNext (State.putFilter ready bc hc bits) (withKey s g) := by
  have hover : (s.putFilter ready bc hc bits).keyOverlong = s.keyOverlong := rfl
  have hkey : (s.putFilter ready bc hc bits).keyBytes = s.keyBytes := rfl
  unfold withKey
  rw [hover, hkey, raiseError_putFilter]
  cases s.keyOverlong with
  | true => rfl
  | false =>
    cases s.keyBytes with
    | error j => rfl
    | ok key => exact h key

end

/-- Settles O12: HASH is its effect under `withKey`, and neither looks at the filter or writes it. -/
theorem hashIgnoresTheFilter : Obligations.HashIgnoresTheFilter := fun s ready bc hc bits =>
  withKey_putFilter ready bc hc bits fun key => congrArg _ (hashEffect_putFilter ready bc hc bits s key)

end Sys2Proof.Machine
end

section
/-! SUPPORT. The command CONFIG and the filter it makes (42 R100 to R106, 44 R147). -/

namespace Sys2Proof.Machine

variable {s t : State} {key : List Byte}

/-! ### CONFIG -/

theorem exec_config_accepted (h : configAccepts s = true) : exec .config s = .next (configEffect s) :=
  if_pos h

theorem exec_config_rejected (h : ¬ configAccepts s = true) :
    exec .config s = .next (raiseError .invalidParams s) :=
  if_neg h

/-- INVALID_PARAMS leaves the FAULT bit (60 R162). -/
theorem raiseError_invalidParams (s : State) :
    raiseError .invalidParams s = { s with err := .invalidParams, inFlight := none } :=
  raiseError_eq .invalidParams s

/-- A CONFIG that ends without error had legal operands. -/
theorem exec_config_ok (h : exec .config s = .next t) (hok : t.err = .ok) :
    configAccepts s = true ∧ t = configEffect s := by
  rcases execConfig_cases h with haccepted | ⟨-, rfl⟩
  · exact haccepted
  · cases hok

/-- Settles O18, by whether CONFIG accepts its operands; the array is the zero fill. -/
theorem configMakesTheFilter : Obligations.ConfigMakesTheFilter := by
  refine fun s => ⟨fun hlegal => ?accepted, fun hillegal => ?rejected⟩
  case accepted =>
    refine ⟨_, exec_config_accepted (configAccepts_iff.2 hlegal), fun j hj => ?_, fun j hj => ?_⟩
    · rw [Memory.read_zeroFill, byteCount_eq, if_pos hj]
    · rw [Memory.read_zeroFill, byteCount_eq, if_neg hj.not_gt]
  case rejected =>
    rw [exec_config_rejected (mt configAccepts_iff.1 hillegal), raiseError_invalidParams]

/-- Settles O19: the shift form is the ceiling, and the ceiling is monotone. -/
theorem byteCountIsTheCeiling : Obligations.ByteCountIsTheCeiling := by
  refine fun bc => ⟨byteCount_eq bc, fun p hpos hmax => ?_⟩
  rw [byteCount_eq]
  omega

/-! ### The fresh filter -/

/-- Every bit of the bytes in use is 0 (42 R106). -/
theorem bitRead_configEffect {idx : Nat} (h : idx < 8 * byteCount s.wantedBits) :
    bitRead (configEffect s).epoch (configEffect s).bits idx = false :=
  bitRead_zeroFill h

theorem exec_check_of_keyIs (hready : s.ready = true) (hfits : KeyFits s) (hkey : KeyIs s key)
    (hbc : s.bitCount.toNat ≠ 0) : exec .check s = .next (checkEffect s key) :=
  withFilterAndKey_of_keyIs hready hfits hkey hbc

/-- One clear probed bit makes a CHECK answer false (44 R136). -/
theorem checkEffect_of_clear_probe {i : Nat} (hi : i < s.hashCount.toNat)
    (hclear : bitRead s.epoch s.bits (probeIndex (probeA key) (probeB key) s.bitCount.toNat i) = false) :
    (checkEffect s key).hit = false ∧ (checkEffect s key).result = 0#32 ∧ (checkEffect s key).err = .ok := by
  obtain ⟨r, heq⟩ := checkEffect_eq s key
  have hmiss : ¬ ∀ t < s.hashCount.toNat,
      bitRead s.epoch s.bits (probeIndex (probeA key) (probeB key) s.bitCount.toNat t) = true :=
    fun hall => Bool.false_ne_true (hclear.symm.trans (hall i hi))
  rw [heq, decide_eq_false hmiss]
  exact ⟨rfl, rfl, rfl⟩

/-- Settles O20: the zero fill clears the bytes in use, and a CHECK's probe 0 falls on one of their bits. -/
theorem freshFilterHoldsNothing : Obligations.FreshFilterHoldsNothing := by
  intro s t hconfig hok
  obtain ⟨haccepts, rfl⟩ := exec_config_ok hconfig hok
  obtain ⟨hbits, -, hhashes⟩ := configAccepts_iff.1 haccepts
  refine ⟨fun idx hidx => bitRead_configEffect (byteCount_eq s.wantedBits ▸ hidx), fun key hfits hkey => ?_⟩
  have hprobe : probeIndex (probeA key) (probeB key) s.arg0.toNat 0 < 8 * byteCount s.arg0 := by
    have := probeIndex_lt (a := probeA key) (b := probeB key) (i := 0) hbits
    rw [byteCount_eq]
    omega
  exact ⟨_, exec_check_of_keyIs rfl hfits hkey (Nat.ne_of_gt hbits),
    checkEffect_of_clear_probe hhashes (bitRead_configEffect hprobe)⟩

end Sys2Proof.Machine
end

section
/-! SUPPORT. Rounding to binary64 is monotone, and exact on whole numbers of units below 2^53 (log 17). -/

namespace Sys2Proof.Machine

variable {num den num' den' q : Nat}

/-- How many low bits of a whole part `q` rounding to 53 significant bits drops. -/
def f64Shift (q : Nat) : Nat := if q < 2 ^ 53 then 0 else Nat.log2 q - 52

/-- The units of `num / den` rounded to 53 significant bits, before the test for infinity. -/
def f64RoundUnits (num den : Nat) : Nat :=
  roundHalfEven num (den * 2 ^ f64Shift (num / den)) * 2 ^ f64Shift (num / den)

theorem f64Round_eq (neg : Bool) (num den : Nat) :
    f64Round neg num den =
      if f64RoundUnits num den < 2 ^ 1024 * f64One then .fin neg (f64RoundUnits num den) else .inf neg := rfl

/-- Rounding keeps the sign, and answers the rounded units or infinity. -/
theorem f64Round_cases (neg : Bool) (num den : Nat) :
    f64Round neg num den = .fin neg (f64RoundUnits num den) ∨ f64Round neg num den = .inf neg := by
  rw [f64Round_eq]
  split
  · exact .inl rfl
  · exact .inr rfl

/-- A finite rounded value has the sign and the units of `f64RoundUnits`. -/
theorem f64Round_eq_fin {neg m : Bool} {u : Nat} (h : f64Round neg num den = .fin m u) :
    m = neg ∧ u = f64RoundUnits num den := by
  rcases f64Round_cases neg num den with hfin | hinf
  · rw [hfin] at h
    cases h
    exact ⟨rfl, rfl⟩
  · rw [hinf] at h
    cases h

/-! ### The shift -/

theorem f64Shift_of_lt (h : q < 2 ^ 53) : f64Shift q = 0 := if_pos h

theorem lt_two_pow_f64Shift (q : Nat) : q < 2 ^ (53 + f64Shift q) := by
  rcases Nat.lt_or_ge q (2 ^ 53) with hsmall | hlarge
  · rwa [f64Shift_of_lt hsmall]
  · have hlog : 53 ≤ Nat.log2 q := (Nat.le_log2 (by omega)).2 hlarge
    rw [f64Shift, if_neg hlarge.not_gt, show 53 + (Nat.log2 q - 52) = Nat.log2 q + 1 by omega]
    exact Nat.lt_log2_self

theorem two_pow_f64Shift_le (h : f64Shift q ≠ 0) : 2 ^ (52 + f64Shift q) ≤ q := by
  have hlarge : ¬ q < 2 ^ 53 := mt f64Shift_of_lt h
  have hlog : 53 ≤ Nat.log2 q := (Nat.le_log2 (by omega)).2 (not_lt.1 hlarge)
  rw [f64Shift, if_neg hlarge, show 52 + (Nat.log2 q - 52) = Nat.log2 q by omega]
  exact Nat.log2_self_le (by omega)

theorem f64Shift_mono {q' : Nat} (h : q ≤ q') : f64Shift q ≤ f64Shift q' := by
  by_contra hlt
  have hlow : 2 ^ (52 + f64Shift q) ≤ q := two_pow_f64Shift_le (by omega)
  have hhigh : q' < 2 ^ (53 + f64Shift q') := lt_two_pow_f64Shift q'
  have hpow : 2 ^ (53 + f64Shift q') ≤ 2 ^ (52 + f64Shift q) := Nat.pow_le_pow_right (by decide) (by omega)
  omega

/-! ### The rounded units -/

/-- Rounding up reaches at most the next power of two. -/
theorem f64RoundUnits_le_two_pow (hd : 0 < den) : f64RoundUnits num den ≤ 2 ^ (53 + f64Shift (num / den)) := by
  have hnum : num < 2 ^ (53 + f64Shift (num / den)) * den :=
    (Nat.div_lt_iff_lt_mul hd).1 (lt_two_pow_f64Shift (num / den))
  have hle : num ≤ 2 ^ 53 * (den * 2 ^ f64Shift (num / den)) := by
    calc num ≤ 2 ^ (53 + f64Shift (num / den)) * den := hnum.le
      _ = 2 ^ 53 * (den * 2 ^ f64Shift (num / den)) := by rw [Nat.pow_add]; ring
  rw [f64RoundUnits, Nat.pow_add]
  exact Nat.mul_le_mul_right _ (roundHalfEven_le (Nat.mul_pos hd (Nat.two_pow_pos _)) hle)

/-- Rounding down reaches at most the power of two below. -/
theorem two_pow_le_f64RoundUnits (hd : 0 < den) (hs : f64Shift (num / den) ≠ 0) :
    2 ^ (52 + f64Shift (num / den)) ≤ f64RoundUnits num den := by
  have hnum : 2 ^ (52 + f64Shift (num / den)) * den ≤ num :=
    (Nat.le_div_iff_mul_le hd).1 (two_pow_f64Shift_le hs)
  have hle : 2 ^ 52 * (den * 2 ^ f64Shift (num / den)) ≤ num := by
    calc 2 ^ 52 * (den * 2 ^ f64Shift (num / den)) = 2 ^ (52 + f64Shift (num / den)) * den := by
          rw [Nat.pow_add]; ring
      _ ≤ num := hnum
  rw [f64RoundUnits, Nat.pow_add]
  exact Nat.mul_le_mul_right _ (le_roundHalfEven (Nat.mul_pos hd (Nat.two_pow_pos _)) hle)

/-- A larger value never rounds to less: at one shift `roundHalfEven` is monotone, and a larger shift puts a power of
two between the two values. -/
theorem f64RoundUnits_mono (hd : 0 < den) (hd' : 0 < den') (h : num * den' ≤ num' * den) :
    f64RoundUnits num den ≤ f64RoundUnits num' den' := by
  have hq : num / den ≤ num' / den' := by
    rw [Nat.le_div_iff_mul_le hd']
    refine Nat.le_of_mul_le_mul_right ?_ hd
    calc num / den * den' * den = num / den * den * den' := Nat.mul_right_comm _ _ _
      _ ≤ num * den' := Nat.mul_le_mul_right _ (Nat.div_mul_le_self num den)
      _ ≤ num' * den := h
  rcases (f64Shift_mono hq).eq_or_lt with heq | hlt
  · have hscaled : num * (den' * 2 ^ f64Shift (num' / den')) ≤ num' * (den * 2 ^ f64Shift (num' / den')) := by
      rw [← Nat.mul_assoc, ← Nat.mul_assoc]
      exact Nat.mul_le_mul_right _ h
    rw [f64RoundUnits, f64RoundUnits, heq]
    exact Nat.mul_le_mul_right _ (roundHalfEven_mono (Nat.mul_pos hd (Nat.two_pow_pos _))
      (Nat.mul_pos hd' (Nat.two_pow_pos _)) hscaled)
  · calc f64RoundUnits num den ≤ 2 ^ (53 + f64Shift (num / den)) := f64RoundUnits_le_two_pow hd
      _ ≤ 2 ^ (52 + f64Shift (num' / den')) := Nat.pow_le_pow_right (by decide) (by omega)
      _ ≤ f64RoundUnits num' den' := two_pow_le_f64RoundUnits hd' (by omega)

/-- A whole number of units below 2^53 is a binary64. -/
theorem f64RoundUnits_whole {k : Nat} (hd : 0 < den) (hk : k < 2 ^ 53) : f64RoundUnits (k * den) den = k := by
  rw [f64RoundUnits, Nat.mul_div_cancel k hd, f64Shift_of_lt hk, Nat.pow_zero, Nat.mul_one, Nat.mul_one]
  exact le_antisymm (roundHalfEven_le hd le_rfl) (le_roundHalfEven hd le_rfl)

end Sys2Proof.Machine
end

section
/-! SUPPORT. NEW, the host's sizing function (42 R109 to R115). -/

namespace Sys2Proof.Machine

variable {ln64 : BitVec 64 → BitVec 64} {capacity : BitVec 32} {errorRate : BitVec 64} {bc hc : Word} {bpe : F64}
  {n u : Nat}

/-! ### Validation -/

theorem inUnitInterval_iff {x : F64} : x.inUnitInterval = true ↔ ∃ u, x = .fin false u ∧ 0 < u ∧ u < f64One := by
  cases x with
  | nan => simp [F64.inUnitInterval]
  | inf neg => simp [F64.inUnitInterval]
  | fin neg u => cases neg <;> simp [F64.inUnitInterval]

theorem newAccepts_iff : newAccepts capacity errorRate = true ↔
    1 ≤ capacity.toInt ∧ ∃ u, F64.ofBits errorRate = .fin false u ∧ 0 < u ∧ u < f64One := by
  rw [newAccepts, Bool.and_eq_true, decide_eq_true_eq, inUnitInterval_iff]

theorem newSizing_rejected (h : ¬ newAccepts capacity errorRate = true) :
    newSizing ln64 capacity errorRate = .invalidParameters :=
  if_neg h

theorem scriptNew_filter (h : newSizing ln64 capacity errorRate = .filter bc hc) :
    scriptNew ln64 capacity errorRate = scriptConfig bc hc := by
  rw [scriptNew, h]

theorem scriptNew_invalidParameters (h : newSizing ln64 capacity errorRate = .invalidParameters) :
    scriptNew ln64 capacity errorRate = [] := by
  rw [scriptNew, h]

/-- Settles O52: NEW's validation fails. -/
theorem newRejectsBadArguments : Obligations.NewRejectsBadArguments := by
  intro ln64 capacity errorRate hbad
  have hrejected : newSizing ln64 capacity errorRate = .invalidParameters := by
    refine newSizing_rejected fun haccepts => ?_
    obtain ⟨hcapacity, hrate⟩ := newAccepts_iff.1 haccepts
    exact hbad.elim (fun hlow => absurd hcapacity hlow.not_ge) (fun hout => hout hrate)
  exact ⟨hrejected, scriptNew_invalidParameters hrejected⟩

/-! ### What a filter answer says -/

/-- An answered filter holds the two counts themselves, which fit 32 bits. -/
theorem sizeFilter_eq_filter (h : sizeFilter bpe capacity = .filter bc hc) :
    newBitCount bpe capacity = some bc.toNat ∧ newHashCount bpe = some hc.toNat ∧ bc.toNat ≠ 0 := by
  unfold sizeFilter at h
  split at h
  · next b k hb hk =>
    split at h
    · cases h
    split at h
    · cases h
    split at h
    · cases h
    injection h with hbc hhc
    have hbNat : bc.toNat = b := hbc ▸ Nat.mod_eq_of_lt (by omega)
    have hkNat : hc.toNat = k := hhc ▸ Nat.mod_eq_of_lt (by omega)
    rw [hbNat, hkNat]
    exact ⟨hb, hk, ‹_›⟩
  · cases h

theorem newSizing_eq_filter (h : newSizing ln64 capacity errorRate = .filter bc hc) :
    newAccepts capacity errorRate = true ∧ sizeFilter (bitsPerElement ln64 errorRate) capacity = .filter bc hc := by
  unfold newSizing at h
  split at h
  · exact ⟨‹_›, h⟩
  · cases h

/-! ### The bit count -/

/-- `fl(to_f64(capacity) * bpe)` in units, for `u` units of bpe (42 R111). -/
def bitCountUnits (capacity : BitVec 32) (u : Nat) : Nat :=
  f64RoundUnits (capacity.toInt.natAbs * f64One * u) f64One

theorem ofInt32_of_pos (h : 1 ≤ capacity.toInt) :
    F64.ofInt32 capacity = .fin false (capacity.toInt.natAbs * f64One) := by
  rw [F64.ofInt32, decide_eq_false (by omega)]

/-- A bit count other than 0 comes of a positive bpe, and is the floor of the rounded product. -/
theorem newBitCount_eq_some (hcapacity : 1 ≤ capacity.toInt) (h : newBitCount bpe capacity = some n) (hn : n ≠ 0) :
    ∃ u, bpe = .fin false u ∧ n = bitCountUnits capacity u / f64One := by
  rw [newBitCount, ofInt32_of_pos hcapacity] at h
  cases bpe with
  | nan => cases h
  | inf neg =>
    simp only [F64.mul] at h
    split at h <;> cases h
  | fin neg u =>
    simp only [F64.mul] at h
    rcases f64Round_cases (false != neg) (capacity.toInt.natAbs * f64One * u) f64One with hround | hround <;>
      rw [hround] at h
    · cases neg with
      | false => exact ⟨u, rfl, (Option.some.inj h).symm⟩
      | true =>
        simp only [F64.floorNat, Bool.bne_true, Bool.not_false] at h
        split at h <;> cases h
        exact absurd rfl hn
    · cases h

/-- A larger capacity or more bits per element never give fewer bits. -/
theorem bitCountUnits_mono {capacity' : BitVec 32} {u' : Nat}
    (hcapacity : capacity.toInt.natAbs ≤ capacity'.toInt.natAbs) (hu : u ≤ u') :
    bitCountUnits capacity u ≤ bitCountUnits capacity' u' :=
  f64RoundUnits_mono f64One_pos f64One_pos
    (Nat.mul_le_mul_right _ (Nat.mul_le_mul (Nat.mul_le_mul_right _ hcapacity) hu))

/-- Everything a filter answer says: the capacity is positive, bpe is `u` units, the bit count the floor of its product
with the capacity. -/
theorem newSizing_filter_cases (h : newSizing ln64 capacity errorRate = .filter bc hc) :
    1 ≤ capacity.toInt ∧ bc.toNat ≠ 0 ∧ ∃ u, bitsPerElement ln64 errorRate = .fin false u ∧
      bc.toNat = bitCountUnits capacity u / f64One ∧ newHashCount (.fin false u) = some hc.toNat := by
  obtain ⟨haccepts, hsize⟩ := newSizing_eq_filter h
  obtain ⟨hcapacity, -⟩ := newAccepts_iff.1 haccepts
  obtain ⟨hbits, hhashes, hpos⟩ := sizeFilter_eq_filter hsize
  obtain ⟨u, hbpe, hbc⟩ := newBitCount_eq_some hcapacity hbits hpos
  exact ⟨hcapacity, hpos, u, hbpe, hbc, hbpe ▸ hhashes⟩

/-! ### The hash count -/

/-- LN2 is at least one half (00 R8, 42 R112). -/
theorem f64Ln2_ge_half : ∃ w, f64Ln2 = .fin false w ∧ f64One ≤ w * 2 :=
  ⟨1560828692041339 * 2 ^ 1023, by decide +kernel, by decide +kernel⟩

/-- With two units of bpe or more, the product with LN2 does not round to 0, so its ceiling is at least 1. -/
theorem one_le_newHashCount (hu : 2 ≤ u) (h : newHashCount (.fin false u) = some n) : 1 ≤ n := by
  obtain ⟨w, hln2, hhalf⟩ := f64Ln2_ge_half
  have hpos : 1 ≤ f64RoundUnits (w * u) f64One := by
    calc 1 = f64RoundUnits (1 * f64One) f64One := (f64RoundUnits_whole f64One_pos (by decide)).symm
      _ ≤ f64RoundUnits (w * u) f64One := f64RoundUnits_mono f64One_pos f64One_pos (Nat.mul_le_mul_right _ (by
          calc 1 * f64One = f64One := Nat.one_mul _
            _ ≤ w * 2 := hhalf
            _ ≤ w * u := Nat.mul_le_mul_left _ hu))
  rw [newHashCount, hln2, F64.mul] at h
  rcases f64Round_cases (false != false) (w * u) f64One with hround | hround <;> rw [hround] at h
  · rw [← Option.some.inj h, Nat.le_div_iff_mul_le f64One_pos]
    omega
  · cases h

theorem natAbs_toInt_le (v : BitVec 32) : v.toInt.natAbs ≤ 2 ^ 31 := by
  have hlow := BitVec.le_toInt v
  have hhigh := BitVec.toInt_lt (x := v)
  omega

/-- With one unit of bpe, the product with the capacity is far below one. -/
theorem two_le_of_bitCountUnits (h : bitCountUnits capacity u / f64One ≠ 0) : 2 ≤ u := by
  by_contra hu
  have hproduct : capacity.toInt.natAbs * f64One * u ≤ 2 ^ 31 * f64One := by
    calc capacity.toInt.natAbs * f64One * u ≤ capacity.toInt.natAbs * f64One * 1 := Nat.mul_le_mul_left _ (by omega)
      _ = capacity.toInt.natAbs * f64One := Nat.mul_one _
      _ ≤ 2 ^ 31 * f64One := Nat.mul_le_mul_right _ (natAbs_toInt_le capacity)
  have hsmall : bitCountUnits capacity u < f64One := by
    calc bitCountUnits capacity u ≤ f64RoundUnits (2 ^ 31 * f64One) f64One :=
          f64RoundUnits_mono f64One_pos f64One_pos (Nat.mul_le_mul_right _ hproduct)
      _ = 2 ^ 31 := f64RoundUnits_whole f64One_pos (by decide)
      _ < f64One := by decide +kernel
  exact h (Nat.div_eq_of_lt hsmall)

/-- Settles O53: a bit count of 0 is rejected, and one of at least 1 takes a bpe whose hash count is no 0 either. -/
theorem newGivesLegalOperands : Obligations.NewGivesLegalOperands := by
  intro ln64 capacity errorRate bc hc h
  obtain ⟨-, hpos, u, -, hbc, hhashes⟩ := newSizing_filter_cases h
  have hu : 2 ≤ u := two_le_of_bitCountUnits (hbc ▸ hpos)
  exact ⟨Nat.one_le_iff_ne_zero.2 hpos, one_le_newHashCount hu hhashes, scriptNew_filter h⟩

/-! ### Monotonicity -/

/-- LN2SQ in units (00 R8, 42 R110). -/
def ln2SqUnits : Nat := 8655072057804167 * 2 ^ 1020

theorem f64Ln2Sq_eq : f64Ln2Sq = .fin false ln2SqUnits := by decide +kernel

theorem ln2SqUnits_pos : 0 < ln2SqUnits := by decide +kernel

/-- `fl(x / LN2SQ)` in units, for `k` units of x (42 R110). -/
def bpeUnits (k : Nat) : Nat := f64RoundUnits (k * f64One) ln2SqUnits

theorem bpeUnits_mono {k k' : Nat} (h : k ≤ k') : bpeUnits k ≤ bpeUnits k' :=
  f64RoundUnits_mono ln2SqUnits_pos ln2SqUnits_pos (Nat.mul_le_mul_right _ (Nat.mul_le_mul_right _ h))

/-- A bpe that is finite and not negative comes of a finite LN64 with the sign set. -/
theorem bitsPerElement_eq_fin (h : bitsPerElement ln64 errorRate = .fin false u) :
    ∃ k, F64.ofBits (ln64 errorRate) = .fin true k ∧ u = bpeUnits k := by
  rw [bitsPerElement, f64Ln2Sq_eq] at h
  cases hln : F64.ofBits (ln64 errorRate) with
  | nan => rw [hln] at h; cases h
  | inf neg => rw [hln] at h; cases h
  | fin neg k =>
    rw [hln, F64.neg, F64.div, if_neg ln2SqUnits_pos.ne'] at h
    obtain ⟨hsign, hu⟩ := f64Round_eq_fin h
    cases neg with
    | false => cases hsign
    | true => exact ⟨k, rfl, hu⟩

/-- The bit count of a filter answer, from the capacity and LN64's value alone. -/
theorem newSizing_bitCount (h : newSizing ln64 capacity errorRate = .filter bc hc) :
    ∃ k, F64.ofBits (ln64 errorRate) = .fin true k ∧ bc.toNat = bitCountUnits capacity (bpeUnits k) / f64One := by
  obtain ⟨-, -, u, hbpe, hbc, -⟩ := newSizing_filter_cases h
  obtain ⟨k, hln, rfl⟩ := bitsPerElement_eq_fin hbpe
  exact ⟨k, hln, hbc⟩

/-- An error rate that gives a filter lies strictly between 0 and 1. -/
theorem newSizing_errorRate (h : newSizing ln64 capacity errorRate = .filter bc hc)
    (hrate : F64.ofBits errorRate = .fin false u) : 0 < u ∧ u < f64One := by
  obtain ⟨haccepts, -⟩ := newSizing_eq_filter h
  obtain ⟨-, v, hv, hin⟩ := newAccepts_iff.1 haccepts
  obtain ⟨-, rfl⟩ : false = false ∧ u = v := F64.fin.inj (hrate.symm.trans hv)
  exact hin

/-- Settles O54: each rounding on the way from capacity and LN64 to the bit count is monotone. -/
theorem sizingIsMonotone : Obligations.SizingIsMonotone := by
  refine fun ln64 => ⟨?capacity, fun hmono => ?errorRate⟩
  case capacity =>
    intro capacity capacity' errorRate bc hc bc' hc' hle h h'
    obtain ⟨hcapacity, -⟩ := newSizing_filter_cases h
    obtain ⟨k, hln, hbc⟩ := newSizing_bitCount h
    obtain ⟨k', hln', hbc'⟩ := newSizing_bitCount h'
    obtain ⟨-, rfl⟩ : true = true ∧ k = k' := F64.fin.inj (hln.symm.trans hln')
    rw [hbc, hbc']
    exact Nat.div_le_div_right (bitCountUnits_mono (by omega) le_rfl)
  case errorRate =>
    intro capacity x y u v bc hc bc' hc' hx hy huv h h'
    obtain ⟨hpos, -⟩ := newSizing_errorRate h hx
    obtain ⟨-, hlt⟩ := newSizing_errorRate h' hy
    obtain ⟨k, hln, hbc⟩ := newSizing_bitCount h
    obtain ⟨k', hln', hbc'⟩ := newSizing_bitCount h'
    have hle : -(k : Int) ≤ -(k' : Int) :=
      hmono x y u v _ _ hx hy hpos huv hlt (congrArg F64.signedUnits hln) (congrArg F64.signedUnits hln')
    rw [hbc, hbc']
    exact Nat.div_le_div_right (bitCountUnits_mono le_rfl (bpeUnits_mono (by omega)))

end Sys2Proof.Machine
end

section
/-! SUPPORT. The probe engine's index arithmetic: the datapaths that compute it, the incremental form, and the modulus
(43 R123 to R129). -/

namespace Sys2Proof.Machine

variable {s : State} {a b : Word} {bc i : Nat}

/-! ### The datapaths -/

/-- No legal probe's sum reaches 2^64 (43 R124). -/
theorem probeSum_lt (hi : i ≤ 2 ^ 32 - 2) : a.toNat + i * b.toNat < 2 ^ 64 := by
  have ha := a.isLt
  have hprod : i * b.toNat ≤ (2 ^ 32 - 2) * (2 ^ 32 - 1) := Nat.mul_le_mul hi (by omega)
  omega

/-- A 64-bit datapath computes the sum mod 2^64, and then the index. -/
theorem probeIndex64_toNat (a b bc : Word) (i : Nat) :
    (probeIndex64 a b bc (BitVec.ofNat 64 i)).toNat = (a.toNat + i * b.toNat) % 2 ^ 64 % bc.toNat := by
  have hword : ∀ x : Word, (x.setWidth 64).toNat = x.toNat := fun x => BitVec.toNat_setWidth_of_le (by decide)
  rw [probeIndex64, BitVec.toNat_umod, BitVec.toNat_add, BitVec.toNat_mul, BitVec.toNat_ofNat, hword, hword, hword,
    Nat.mod_mul_mod, Nat.add_mod_mod]

/-- Vector P1: the third probe of "foo" for 191 bits is 24, not 68. -/
theorem probeIndex32_foo_ne : probeIndex32 (probeA [0x66#8, 0x6f#8, 0x6f#8]) (probeB [0x66#8, 0x6f#8, 0x6f#8]) 191 2 ≠
    probeIndex (probeA [0x66#8, 0x6f#8, 0x6f#8]) (probeB [0x66#8, 0x6f#8, 0x6f#8]) 191 2 := by decide +kernel

/-- Settles O21: the sum stays below 2^64, so the 64-bit datapath drops nothing; vector P1 breaks the 32-bit one. -/
theorem sixtyFourBitDatapathIsExact : Obligations.SixtyFourBitDatapathIsExact := by
  refine ⟨fun a b bc i hbc hi => ?exact64, [0x66#8, 0x6f#8, 0x6f#8], 191#32, 2, by decide, by decide,
    probeIndex32_foo_ne⟩
  case exact64 =>
    have hsum : a.toNat + i * b.toNat < 2 ^ 64 := probeSum_lt hi
    refine ⟨hsum, ?_, rfl, probeIndex_lt (BitVec.toNat_pos_of_ne_zero hbc)⟩
    rw [probeIndex64_toNat, Nat.mod_eq_of_lt hsum]

/-! ### The incremental form -/

@[simp] theorem probeIndex_zero (a b : Word) (bc : Nat) : probeIndex a b bc 0 = a.toNat % bc := by
  rw [probeIndex, Nat.zero_mul, Nat.add_zero]

theorem probeIndex_succ (a b : Word) (bc i : Nat) :
    probeIndex a b bc (i + 1) = (probeIndex a b bc i + b.toNat % bc) % bc := by
  rw [probeIndex, probeIndex, ← Nat.add_mod, Nat.succ_mul, Nat.add_assoc]

/-- Of two residues' sum, one subtraction at most is the remainder (43 R128). -/
theorem probeIndexStep_eq_mod {s idx : Nat} (hs : s < bc) (hidx : idx < bc) :
    probeIndexStep s bc idx = (idx + s) % bc := by
  rw [probeIndexStep]
  split
  · next hwrap => rw [Nat.mod_eq_sub_mod hwrap, Nat.mod_eq_of_lt (by omega)]
  · next hfits => rw [Nat.mod_eq_of_lt (by omega)]

/-- Settles O22: the next index is the remainder of the last one's sum with `b mod bc`. -/
theorem incrementalIndicesAgree : Obligations.IncrementalIndicesAgree := by
  refine fun a b bc hbc => ⟨probeIndex_zero a b bc, fun i => ?_⟩
  rw [probeIndex_succ, probeIndexStep_eq_mod (Nat.mod_lt _ hbc) (probeIndex_lt hbc)]

/-! ### The corner cases -/

/-- Where b is a multiple of bc every probe falls on the first index (43 R129(b)). -/
theorem probeIndex_of_dvd (h : bc ∣ b.toNat) (i : Nat) : probeIndex a b bc i = a.toNat % bc := by
  obtain ⟨q, hq⟩ := h
  rw [probeIndex, hq, Nat.mul_left_comm, Nat.add_mul_mod_self_left]

/-- Wrapping at 2^32 loses nothing where bc divides 2^32 (43 R129(d)). -/
theorem probeIndex32_of_dvd (h : bc ∣ 2 ^ 32) : probeIndex32 a b bc i = probeIndex a b bc i :=
  Nat.mod_mod_of_dvd _ h

/-- Settles O23: everything is 0 mod 1; b drops out where bc divides it; a power of two up to 2^31 divides 2^32. -/
theorem probeCornerCases : Obligations.ProbeCornerCases :=
  ⟨fun _ _ _ => Nat.mod_one _,
    fun _ _ _ i h => probeIndex_of_dvd (Nat.dvd_of_mod_eq_zero h) i,
    fun _ _ _ _ hk => probeIndex32_of_dvd (Nat.pow_dvd_pow 2 (hk.trans (by decide)))⟩

/-! ### The modulus -/

/-- The Engine's turn faults only in a command (60 R165, R179). -/
theorem engineTurn_fault_cases {r : Fault} (h : engineTurn s = .fault r) :
    ∃ c i, s.inFlight = some c ∧ decode c = .ok i ∧ exec i s = .fault r := by
  cases hc : s.inFlight with
  | none => rw [engineTurn_idle hc] at h; cases h
  | some c =>
    rw [engineTurn_busy hc] at h
    cases hd : decode c with
    | error e => rw [runCommand_error hd] at h; cases h
    | ok i => exact ⟨c, i, rfl, hd, by rwa [runCommand_ok hd] at h⟩

/-- Neither the host's turn nor a reset faults. -/
theorem step_fault_cases {r : Fault} (h : step s = .fault r) :
    nextTurn s = .engine ∧ engineTurn (takeTurn s) = .fault r := by
  unfold step at h
  cases hturn : nextTurn s <;> rw [hturn] at h
  case host => cases h
  case engine => exact ⟨rfl, h⟩
  case reset => cases h

/-- A command takes a modulus by zero only with a filter of no bits. -/
theorem exec_probeModulusZero {i : Instr} (h : exec i s = .fault .probeModulusZero) :
    s.ready = true ∧ s.bitCount.toNat = 0 := by
  obtain ⟨hcommand, -, ⟨j, hfault, -⟩ | ⟨-, hprobes, hzero⟩⟩ := exec_fault_cases h
  · cases hfault
  · rcases hcommand with rfl | ⟨-, hready⟩
    · exact absurd hprobes (by decide)
    · exact ⟨hready, hzero⟩

/-- Settles O32: a probe needs READY = 1, and then the invariant says BIT_COUNT is not 0. -/
theorem probeModulusIsNeverZero : Obligations.ProbeModulusIsNeverZero := by
  intro s h hstep
  obtain ⟨-, hturn⟩ := step_fault_cases hstep
  obtain ⟨c, i, -, -, hexec⟩ := engineTurn_fault_cases hturn
  obtain ⟨hready, hzero⟩ := exec_probeModulusZero hexec
  obtain ⟨hpos, -⟩ := h.readyFilter hready
  exact Nat.ne_of_gt hpos hzero

end Sys2Proof.Machine
end

section
/-! SUPPORT. The commands CHECK and ADD (44 R136 to R142): what each leaves of the filter and shows of it, and the other
orders of work the spec allows. -/

namespace Sys2Proof.Machine

variable {s t : State} {key : List Byte} {bc n : Nat} {l : List Nat}

/-- Every probed bit of the key is set in the filter of `s` (44 R136). -/
abbrev AllProbesSet (s : State) (key : List Byte) : Prop :=
  ∀ i < s.hashCount.toNat,
    bitRead s.epoch s.bits (probeIndex (probeA key) (probeB key) s.bitCount.toNat i) = true

theorem boolWord_eq (v : Bool) : boolWord v = if v then 1#32 else 0#32 := by cases v <;> rfl

/-! ### What CHECK and ADD share -/

theorem exec_add_of_keyIs (hready : s.ready = true) (hfits : KeyFits s) (hkey : KeyIs s key)
    (hbc : s.bitCount.toNat ≠ 0) : exec .add s = .next (addEffect s key) :=
  withFilterAndKey_of_keyIs hready hfits hkey hbc

/-- A CHECK or ADD that ends without error had a filter and its key in place. -/
theorem withFilterAndKey_ok {effect : List Byte → State} (hkey : KeyIs s key)
    (h : withFilterAndKey s effect = .next t) (hok : t.err = .ok) :
    s.ready = true ∧ KeyFits s ∧ s.bitCount.toNat ≠ 0 ∧ t = effect key := by
  rcases withFilterAndKey_cases h with ⟨-, rfl⟩ | ⟨-, -, rfl⟩ | ⟨key', hready, hfits, hkey', hbc, rfl⟩
  · cases hok
  · cases hok
  · exact ⟨hready, hfits, hbc, congrArg effect (hkey'.unique hkey)⟩

/-- The two errors of CHECK and ADD (44 R136, R138): each leaves all but ERR, BUSY and, for NOT_READY, FAULT. -/
theorem withFilterAndKey_errors (s : State) (effect : List Byte → State) :
    (s.ready = false →
        withFilterAndKey s effect = .next { s with err := .notReady, fault := true, inFlight := none }) ∧
      (s.ready = true → ¬ KeyFits s →
        withFilterAndKey s effect = .next { s with err := .keyTooLong, inFlight := none }) := by
  refine ⟨fun hready => ?_, fun hready hfits => ?_⟩
  · rw [withFilterAndKey_notReady hready, raiseError_eq]; rfl
  · rw [withFilterAndKey_overlong hready hfits, raiseError_keyTooLong]

/-- Settles O24: with its key in place a CHECK is `checkEffect`, and else one of the two errors. -/
theorem checkReportsWhetherEveryBitIsSet : Obligations.CheckReportsWhetherEveryBitIsSet := by
  refine fun s => ⟨fun key hready hbc hfits hkey => ?_, withFilterAndKey_errors s (checkEffect s)⟩
  obtain ⟨r, heffect⟩ := checkEffect_eq s key
  rw [boolWord_eq] at heffect
  have hbc' : s.bitCount.toNat ≠ 0 := Nat.ne_of_gt (BitVec.toNat_pos_of_ne_zero hbc)
  exact ⟨r, (exec_check_of_keyIs hready hfits hkey hbc').trans (congrArg _ heffect)⟩

/-- Settles O25: with its key in place an ADD is `addEffect`, and else one of the two errors. -/
theorem addSetsEveryProbedBit : Obligations.AddSetsEveryProbedBit := by
  refine fun s => ⟨fun key hready hbc hfits hkey => ?_, withFilterAndKey_errors s (addEffect s)⟩
  obtain ⟨m, r, heffect, hbit, hbyte, -⟩ := addEffect_eq s key
  rw [boolWord_eq] at heffect
  have hbc' : s.bitCount.toNat ≠ 0 := Nat.ne_of_gt (BitVec.toNat_pos_of_ne_zero hbc)
  refine ⟨m, r, (exec_add_of_keyIs hready hfits hkey hbc').trans (congrArg _ heffect), fun j => ?_, hbyte⟩
  rw [hbit j, Bool.or_eq_true, decide_eq_true_eq]
  rfl

/-! ### What each shows -/

/-- The answer of a CHECK (44 R136, R146). -/
theorem checkEffect_answer (s : State) (key : List Byte) :
    (checkEffect s key).hit = decide (AllProbesSet s key) ∧
      (checkEffect s key).result = boolWord (decide (AllProbesSet s key)) ∧ (checkEffect s key).err = .ok ∧
      (checkEffect s key).fault = s.fault := by
  obtain ⟨r, heffect⟩ := checkEffect_eq s key
  rw [heffect]
  exact ⟨rfl, rfl, rfl, rfl⟩

/-- The answer of an ADD (44 R138, R146), which is about the array before it. -/
theorem addEffect_answer (s : State) (key : List Byte) :
    (addEffect s key).hit = decide (AllProbesSet s key) ∧
      (addEffect s key).result = boolWord (decide (AllProbesSet s key)) ∧ (addEffect s key).err = .ok ∧
      (addEffect s key).fault = s.fault := by
  obtain ⟨m, r, heffect, -⟩ := addEffect_eq s key
  rw [heffect]
  exact ⟨rfl, rfl, rfl, rfl⟩

/-- The array an ADD leaves: the old bits and the probed ones (44 R138). -/
theorem bitRead_addEffect (s : State) (key : List Byte) (idx : Nat) :
    bitRead (addEffect s key).epoch (addEffect s key).bits idx = (bitRead s.epoch s.bits idx ||
      decide (∃ i < s.hashCount.toNat, probeIndex (probeA key) (probeB key) s.bitCount.toNat i = idx)) := by
  obtain ⟨m, r, heffect, hbit, -⟩ := addEffect_eq s key
  rw [heffect]
  exact hbit idx

/-- An ADD that finds every probed bit set leaves the array byte for byte (44 R145). -/
theorem addEffect_bits_of_allProbesSet (hset : AllProbesSet s key) : (addEffect s key).bits = s.bits := by
  obtain ⟨m, r, heffect, -, -, hsame, -⟩ := addEffect_eq s key
  rw [heffect]
  exact hsame (decide_eq_true hset)

/-- Settles O26: both take the same branch, and in the last one the answers are alike. -/
theorem addAnswersTheCheckBeforeIt : Obligations.AddAnswersTheCheckBeforeIt := by
  intro s t hadd
  rcases withFilterAndKey_cases (effect := addEffect s) hadd with
    ⟨hready, rfl⟩ | ⟨hready, hfits, rfl⟩ | ⟨key, hready, hfits, hkey, hbc, rfl⟩
  case inl => exact ⟨_, withFilterAndKey_notReady hready, rfl, rfl, rfl, rfl⟩
  case inr.inl => exact ⟨_, withFilterAndKey_overlong hready hfits, rfl, rfl, rfl, rfl⟩
  case inr.inr =>
    obtain ⟨ahit, aresult, aerr, afault⟩ := addEffect_answer s key
    obtain ⟨chit, cresult, cerr, cfault⟩ := checkEffect_answer s key
    exact ⟨_, exec_check_of_keyIs hready hfits hkey hbc, ahit.trans chit.symm, aresult.trans cresult.symm,
      aerr.trans cerr.symm, afault.trans cfault.symm⟩

/-! ### Other orders of work -/

theorem mem_probeIndices {j : Nat} :
    j ∈ probeIndices key bc n ↔ ∃ i < n, probeIndex (probeA key) (probeB key) bc i = j := by
  simp only [probeIndices, List.mem_map, List.mem_range]

/-- Reading every bit at the probe indices, in any order, says whether every probed bit is set (44 R137). -/
theorem all_bitRead_of_perm (hperm : l.Perm (probeIndices key s.bitCount.toNat s.hashCount.toNat)) :
    l.all (bitRead s.epoch s.bits) = decide (AllProbesSet s key) := by
  rw [Bool.eq_iff_iff, hperm.all_eq, List.all_eq_true, decide_eq_true_eq]
  simp only [mem_probeIndices]
  constructor
  · exact fun hall i hi => hall _ ⟨i, hi, rfl⟩
  · rintro hall _ ⟨i, hi, rfl⟩
    exact hall i hi

/-- Stopping at the first clear bit does not change the AND. -/
theorem checkShortCircuit_eq_all (epoch : Nat) (bits : Memory) (l : List Nat) :
    checkShortCircuit epoch bits l = l.all (bitRead epoch bits) := by
  induction l with
  | nil => rfl
  | cons idx rest ih => cases h : bitRead epoch bits idx <;> simp [checkShortCircuit, h, ih]

/-- Setting bits one after the other sets those bits and no other (44 R142). -/
theorem bitRead_setAll (epoch : Nat) (bits : Memory) (l : List Nat) (j : Nat) :
    bitRead epoch (setAll epoch bits l) j = (bitRead epoch bits j || decide (j ∈ l)) := by
  induction l generalizing bits with
  | nil => simp [setAll]
  | cons idx rest ih => simp [setAll, ih, bitRead_bitSet, Bool.or_assoc, eq_comm]

/-- Settles O27: HIT is the AND over the probe indices, which neither their order nor an early stop changes. -/
theorem checkMayReorderAndStopEarly : Obligations.CheckMayReorderAndStopEarly := by
  intro s t key l hkey hcheck hok hperm
  obtain ⟨-, -, -, rfl⟩ := withFilterAndKey_ok (effect := checkEffect s) hkey hcheck hok
  obtain ⟨hhit, -⟩ := checkEffect_answer s key
  rw [checkShortCircuit_eq_all, all_bitRead_of_perm hperm]
  exact ⟨hhit, hhit⟩

/-- Settles O28: both answer the AND over the old array, and both set the old bits and the probed ones. -/
theorem parallelAddAgrees : Obligations.ParallelAddAgrees := by
  intro s t key l hkey hadd hok hperm
  obtain ⟨-, -, -, rfl⟩ := withFilterAndKey_ok (effect := addEffect s) hkey hadd hok
  obtain ⟨hhit, -⟩ := addEffect_answer s key
  refine ⟨hhit.trans (all_bitRead_of_perm hperm).symm, fun j => (bitRead_addEffect s key j).trans ?_⟩
  rw [addParallel, bitRead_setAll]
  simp only [hperm.mem_iff, mem_probeIndices]

end Sys2Proof.Machine
end

section
/-! SUPPORT. The filter over steps (44 R143 to R145): while no CONFIG succeeds and no reset comes, bits are only ever set,
so a key once added stays in. -/

namespace Sys2Proof.Machine

variable {s t u : State} {i : Instr} {key : List Byte}

/-! ### Who changes a bit -/

/-- A command that answers is an accepted CONFIG, leaves the array, or is an ADD with its key in place. -/
theorem exec_bits (h : exec i s = .next t) :
    (i = .config ∧ configAccepts s = true) ∨ (t.epoch = s.epoch ∧ t.bits = s.bits) ∨
      ∃ key, i = .add ∧ t = addEffect s key := by
  rcases exec_cases h with ⟨code, -, -, rfl, -⟩ | ⟨key, -, -, -, rfl⟩ | ⟨hconfig, haccepts, -⟩ |
    ⟨key, -, -, -, -, -, rfl⟩ | ⟨key, hadd, -, -, -, -, heffect⟩
  · exact .inr (.inl ⟨rfl, rfl⟩)
  · exact .inr (.inl ⟨rfl, rfl⟩)
  · exact .inl ⟨hconfig, haccepts⟩
  · exact .inr (.inl ⟨rfl, rfl⟩)
  · exact .inr (.inr ⟨key, hadd, heffect⟩)

/-- A step with no reset completes a successful CONFIG, leaves the array, or completes an ADD, which clears no bit
(44 R143). -/
theorem step_bits (h : step s = .next t) (hreset : nextTurn s ≠ .reset) :
    InstallsFilter s ∨ (t.epoch = s.epoch ∧ t.bits = s.bits) ∨
      ((nextTurn s = .engine ∧ s.inFlight = some (encode .add)) ∧
        ∀ idx, bitRead s.epoch s.bits idx = true → bitRead t.epoch t.bits idx = true) := by
  rcases step_cases h with ⟨-, rfl⟩ | ⟨hturn, h⟩ | ⟨hturn, -⟩
  · obtain ⟨-, -, -, -, hbits, hepoch⟩ := hostTurn_filter (takeTurn s)
    exact .inr (.inl ⟨hepoch, hbits⟩)
  · rcases engineTurn_cases h with ⟨-, rfl⟩ | ⟨c, e, -, -, rfl⟩ | ⟨c, i, hc, hdecode, hexec⟩
    · exact .inr (.inl ⟨rfl, rfl⟩)
    · exact .inr (.inl ⟨rfl, rfl⟩)
    · have hword : s.inFlight = some (encode i) := hc.trans (congrArg some (eq_encode_of_decode hdecode))
      rcases exec_bits hexec with ⟨rfl, haccepts⟩ | hsame | ⟨key, rfl, rfl⟩
      · exact .inl ⟨hturn, hword, haccepts⟩
      · exact .inr (.inl hsame)
      · refine .inr (.inr ⟨⟨hturn, hword⟩, fun idx hset => ?_⟩)
        rw [bitRead_addEffect, Bool.or_eq_true]
        exact .inl hset
  · exact absurd hturn hreset

/-- Settles O29: of the three cases of `step_bits`, the second changes no bit and the third clears none. -/
theorem bitsChangeOnlyByConfigAddAndReset : Obligations.BitsChangeOnlyByConfigAddAndReset := by
  intro s t idx hstep hreset hne
  rcases step_bits hstep hreset with hconfig | ⟨hepoch, hbits⟩ | ⟨⟨hturn, hword⟩, hkept⟩
  · exact .inl hconfig
  · exact absurd (by rw [hepoch, hbits]) hne
  · have hold : bitRead s.epoch s.bits idx = false :=
      Bool.eq_false_iff.2 fun hset => hne ((hkept idx hset).trans hset.symm)
    have hnew : bitRead t.epoch t.bits idx = true :=
      Bool.ne_false_iff.1 fun hclear => hne (hclear.trans hold.symm)
    exact .inr ⟨hturn, hword, hold, hnew⟩

/-! ### The filter stands -/

/-- `t` has the filter of `s`, with every bit that was set in it, and maybe more. -/
structure FilterGrows (s t : State) : Prop where
  params : t.params = s.params
  ready : t.ready = s.ready
  bitCount : t.bitCount = s.bitCount
  hashCount : t.hashCount = s.hashCount
  bits : ∀ idx, bitRead s.epoch s.bits idx = true → bitRead t.epoch t.bits idx = true

theorem FilterGrows.refl (s : State) : FilterGrows s s := ⟨rfl, rfl, rfl, rfl, fun _ h => h⟩

theorem FilterGrows.trans (h : FilterGrows s t) (h' : FilterGrows t u) : FilterGrows s u where
  params := h'.params.trans h.params
  ready := h'.ready.trans h.ready
  bitCount := h'.bitCount.trans h.bitCount
  hashCount := h'.hashCount.trans h.hashCount
  bits idx hset := h'.bits idx (h.bits idx hset)

theorem filterGrows_step (h : KeepsFilterStep s t) : FilterGrows s t := by
  obtain ⟨hstep, hreset, hconfig⟩ := h
  obtain ⟨hready, hbc, hhc⟩ : t.ready = s.ready ∧ t.bitCount = s.bitCount ∧ t.hashCount = s.hashCount := by
    rcases step_filter hstep with h | ⟨h, -⟩ | h
    · exact absurd h hreset
    · exact absurd h hconfig
    · exact h
  refine ⟨step_params hstep, hready, hbc, hhc, fun idx hset => ?_⟩
  rcases step_bits hstep hreset with h | ⟨hepoch, hbits⟩ | ⟨-, hkept⟩
  · exact absurd h hconfig
  · rwa [hepoch, hbits]
  · exact hkept idx hset

theorem filterGrows_of_keepsFilter (h : KeepsFilter s t) : FilterGrows s t := by
  induction h with
  | refl => exact .refl s
  | tail _ hstep ih => exact ih.trans (filterGrows_step hstep)

theorem filterGrows_addEffect (s : State) (key : List Byte) : FilterGrows s (addEffect s key) :=
  ⟨rfl, rfl, rfl, rfl, fun idx hset => by rw [bitRead_addEffect, hset, Bool.true_or]⟩

/-! ### A key once added stays in -/

theorem AllProbesSet.of_filterGrows (hset : AllProbesSet s key) (h : FilterGrows s t) : AllProbesSet t key := by
  intro i hi
  rw [h.hashCount] at hi
  rw [h.bitCount]
  exact h.bits _ (hset i hi)

/-- An ADD sets every probed bit of its key (44 R138). -/
theorem allProbesSet_addEffect (s : State) (key : List Byte) : AllProbesSet (addEffect s key) key := by
  intro i hi
  rw [bitRead_addEffect, Bool.or_eq_true, decide_eq_true_eq]
  exact .inr ⟨i, hi, rfl⟩

/-- After an ADD without error and steps that keep the filter, the same key in place fits, and all its probed bits are
set in a filter that is ready. -/
theorem allProbesSet_of_add (hkey : KeyIs s key) (hadd : exec .add s = .next t) (hok : t.err = .ok)
    (hkeeps : KeepsFilter t u) (hkey' : KeyIs u key) :
    u.ready = true ∧ KeyFits u ∧ u.bitCount.toNat ≠ 0 ∧ AllProbesSet u key := by
  obtain ⟨hready, hfits, hbc, rfl⟩ := withFilterAndKey_ok (effect := addEffect s) hkey hadd hok
  have hlater : FilterGrows (addEffect s key) u := filterGrows_of_keepsFilter hkeeps
  have hgrows : FilterGrows s u := (filterGrows_addEffect s key).trans hlater
  obtain ⟨hlen, -⟩ := hkey
  obtain ⟨hlen', -⟩ := hkey'
  refine ⟨hgrows.ready.trans hready, ?_, ?_, (allProbesSet_addEffect s key).of_filterGrows hlater⟩
  · rwa [KeyFits, hlen', ← hlen, hgrows.params]
  · rwa [hgrows.bitCount]

/-- Settles O30: the probed bits are still set, so the CHECK finds them all. -/
theorem noFalseNegatives : Obligations.NoFalseNegatives := by
  intro s t u key hkey hadd hok hkeeps hkey'
  obtain ⟨hready, hfits, hbc, hset⟩ := allProbesSet_of_add hkey hadd hok hkeeps hkey'
  obtain ⟨hhit, hresult, herr, -⟩ := checkEffect_answer u key
  rw [decide_eq_true hset] at hhit hresult
  exact ⟨_, exec_check_of_keyIs hready hfits hkey' hbc, hhit, hresult, herr⟩

/-- Settles O31: the probed bits are still set, so the second ADD finds them all and sets none. -/
theorem insertionIsIdempotent : Obligations.InsertionIsIdempotent := by
  intro s t u key hkey hadd hok hkeeps hkey'
  obtain ⟨hready, hfits, hbc, hset⟩ := allProbesSet_of_add hkey hadd hok hkeeps hkey'
  obtain ⟨hhit, hresult, herr, -⟩ := addEffect_answer u key
  rw [decide_eq_true hset] at hhit hresult
  exact ⟨_, exec_add_of_keyIs hready hfits hkey' hbc, hhit, hresult, herr, addEffect_bits_of_allProbesSet hset⟩

end Sys2Proof.Machine
end

section
/-! SUPPORT. Errors (spec 60): how a command ends, which error it reports, and which steps touch the sticky bits. -/

namespace Sys2Proof.Machine

variable {s t : State} {c : Word} {i : Instr}

/-! ### How a command ends -/

theorem faultAfter_eq (code : ErrCode) (fault : Bool) :
    faultAfter code fault = if code = .notReady then true else fault := by
  cases code <;> rfl

/-- A command that answers has completed: without error and with FAULT as before, or by raising an error that is not
ILLEGAL_CMD (60 R160 to R166). -/
theorem exec_ends (h : exec i s = .next t) :
    t.busy = false ∧
      ((t.err = .ok ∧ t.fault = s.fault) ∨
        ∃ code, code ≠ .ok ∧ code ≠ .illegalCmd ∧ t = raiseError code s ∧
          (code = .notReady → s.ready = false ∧ (i = .check ∨ i = .add))) := by
  rcases exec_cases h with ⟨code, hok, hillegal, rfl, hcause⟩ | ⟨key, -, -, -, rfl⟩ | ⟨-, -, rfl⟩ |
    ⟨key, -, -, -, -, -, rfl⟩ | ⟨key, -, -, -, -, -, rfl⟩
  · exact ⟨rfl, .inr ⟨code, hok, hillegal, rfl, hcause⟩⟩
  · exact ⟨rfl, .inl ⟨rfl, rfl⟩⟩
  · exact ⟨rfl, .inl ⟨rfl, rfl⟩⟩
  · exact ⟨rfl, .inl ⟨rfl, rfl⟩⟩
  · exact ⟨rfl, .inl ⟨rfl, rfl⟩⟩

/-- Settles O33: an error is `raiseError`, whatever raises it. -/
theorem errorsHaveNoPartialEffect : Obligations.ErrorsHaveNoPartialEffect := by
  intro c s t h
  simp only [← faultAfter_eq]
  rcases runCommand_cases h with ⟨e, -, rfl⟩ | ⟨i, -, hexec⟩
  · exact ⟨rfl, .inr ⟨.illegalCmd, by decide, raiseError_eq .illegalCmd s⟩⟩
  · obtain ⟨hdone, ⟨hok, -⟩ | ⟨code, hcode, -, rfl, -⟩⟩ := exec_ends hexec
    · exact ⟨hdone, .inl hok⟩
    · exact ⟨hdone, .inr ⟨code, hcode, raiseError_eq code s⟩⟩

/-! ### Which error a command reports -/

theorem exec_err_ne_illegalCmd (h : exec i s = .next t) : t.err ≠ .illegalCmd := by
  obtain ⟨-, ⟨hok, -⟩ | ⟨code, -, hcode, rfl, -⟩⟩ := exec_ends h
  · rw [hok]; decide
  · exact hcode

/-- ILLEGAL_CMD is the error of the words that do not decode, and of no command (60 R165). -/
theorem runCommand_err_illegalCmd_iff (h : runCommand c s = .next t) : t.err = .illegalCmd ↔ ¬ commandLegal c := by
  rw [← exists_decode_iff]
  rcases runCommand_cases h with ⟨e, hdecode, rfl⟩ | ⟨i, hdecode, hexec⟩
  · simp [hdecode]
  · simp [hdecode, exec_err_ne_illegalCmd hexec]

/-- HASH's one error (60 R166). -/
theorem exec_hash_err (h : exec .hash s = .next t) :
    (t.err = .ok ↔ KeyFits s) ∧ (t.err = .keyTooLong ↔ ¬ KeyFits s) := by
  rcases execHash_cases h with ⟨hfits, rfl⟩ | ⟨key, hfits, -, rfl⟩
  · simp [hfits]
  · simp [hfits]

/-- The operands CONFIG rejects (42 R101, 60 R162). -/
theorem configAccepts_eq_false_iff : configAccepts s = false ↔
    s.arg0 = 0#32 ∨ s.params.maxBits.toNat < s.arg0.toNat ∨ s.arg1 = 0#32 := by
  rw [← Bool.not_eq_true, configAccepts_iff, ← BitVec.toNat_inj, ← BitVec.toNat_inj, BitVec.toNat_ofNat]
  omega

/-- CONFIG's one error (60 R162). -/
theorem exec_config_err (h : exec .config s = .next t) :
    (t.err = .invalidParams ↔ configAccepts s = false) ∧ (t.err = .ok ↔ ¬ configAccepts s = false) := by
  rcases execConfig_cases h with ⟨haccepts, rfl⟩ | ⟨hrejects, rfl⟩
  · simp [haccepts]
  · simp [hrejects]

/-- The errors of CHECK and ADD, NOT_READY before KEY_TOO_LONG (60 R163, R166, R167). -/
theorem withFilterAndKey_err {effect : List Byte → State} (heffect : ∀ key, (effect key).err = .ok)
    (h : withFilterAndKey s effect = .next t) :
    (t.err = .notReady ↔ s.ready = false) ∧ (t.err = .keyTooLong ↔ s.ready = true ∧ ¬ KeyFits s) ∧
      (t.err = .ok ↔ s.ready = true ∧ KeyFits s) ∧ (s.ready = false → t.fault = true) := by
  rcases withFilterAndKey_cases h with ⟨hready, rfl⟩ | ⟨hready, hfits, rfl⟩ | ⟨key, hready, hfits, -, -, rfl⟩
  · simp [hready, faultAfter_eq]
  · simp [hready, hfits]
  · simp [hready, hfits, heffect key]

/-- Settles O34, command by command. -/
theorem errorCausesAndPriority : Obligations.ErrorCausesAndPriority := by
  refine ⟨⟨rfl, rfl, rfl, rfl, rfl⟩, fun s t =>
    ⟨fun c => runCommand_err_illegalCmd_iff, exec_hash_err, ?config, ?probing⟩⟩
  case config =>
    rw [← configAccepts_eq_false_iff]
    exact exec_config_err
  case probing =>
    rintro i (rfl | rfl) h
    · exact withFilterAndKey_err (effect := checkEffect s) (fun _ => rfl) h
    · exact withFilterAndKey_err (effect := addEffect s) (fun _ => rfl) h

/-! ### Illegal words -/

/-- A step in which the Engine moves runs the word in progress (70 R185). -/
theorem step_of_inFlight (hturn : nextTurn s = .engine) (hc : s.inFlight = some c) :
    step s = runCommand c (takeTurn s) := by
  rw [step, hturn, runTurn_engine]
  exact engineTurn_busy hc

/-- Settles O6: the write to CMD takes any word, and the Engine's step on an illegal one is `runCommand_illegal`. -/
theorem illegalWordsEndWithIllegalCmd : Obligations.IllegalWordsEndWithIllegalCmd := by
  refine fun s c hillegal => ⟨fun hidle => hostWrite_offset hidle .cmd c, fun hc hturn => ?_⟩
  rw [step_of_inFlight hturn hc, runCommand_illegal hillegal]

/-! ### The sticky bits -/

theorem hostTurn_fault (s : State) : (hostTurn s).fault = s.fault := by
  obtain ⟨f, o, a0, a1, kl, k, e, h, -⟩ := hostTurn_keeps s
  rw [h]

/-- A command leaves FAULT, or it is a CHECK or ADD that sets it because READY = 0 (60 R163). -/
theorem exec_fault_bit (h : exec i s = .next t) :
    t.fault = s.fault ∨ (t.fault = true ∧ s.ready = false ∧ (i = .check ∨ i = .add)) := by
  obtain ⟨-, ⟨-, hsame⟩ | ⟨code, -, -, rfl, hcause⟩⟩ := exec_ends h
  · exact .inl hsame
  · rw [raiseError_fault, faultAfter_eq]
    by_cases hcode : code = .notReady
    · exact .inr ⟨if_pos hcode, hcause hcode⟩
    · exact .inl (if_neg hcode)

/-- A step with no reset leaves FAULT, or completes a CHECK or ADD that sets it because READY = 0 (10 R26). -/
theorem step_fault_bit (h : step s = .next t) (hreset : nextTurn s ≠ .reset) :
    t.fault = s.fault ∨ (t.fault = true ∧ nextTurn s = .engine ∧ s.ready = false ∧
      (s.inFlight = some (encode .check) ∨ s.inFlight = some (encode .add))) := by
  rcases step_cases h with ⟨-, rfl⟩ | ⟨hturn, h⟩ | ⟨hturn, -⟩
  · exact .inl (hostTurn_fault (takeTurn s))
  · rcases engineTurn_cases h with ⟨-, rfl⟩ | ⟨c, e, -, -, rfl⟩ | ⟨c, i, hc, hdecode, hexec⟩
    · exact .inl rfl
    · exact .inl rfl
    · have hword : s.inFlight = some (encode i) := hc.trans (congrArg some (eq_encode_of_decode hdecode))
      rcases exec_fault_bit hexec with hsame | ⟨hset, hready, hi⟩
      · exact .inl hsame
      · refine .inr ⟨hset, hturn, hready, ?_⟩
        rcases hi with rfl | rfl
        · exact .inl hword
        · exact .inr hword
  · exact absurd hturn hreset

theorem engineTurn_overrun (h : engineTurn s = .next t) : t.overrun = s.overrun := by
  rcases engineTurn_cases h with ⟨-, rfl⟩ | ⟨c, e, -, -, rfl⟩ | ⟨c, i, -, -, hexec⟩
  · rfl
  · rfl
  · obtain ⟨_, _, _, _, _, _, _, _, _, rfl⟩ := exec_frame hexec
    rfl

/-- A step with no reset leaves OVERRUN, but for a host write while BUSY = 1, which sets it (10 R27, 70 R186). -/
theorem step_overrun (h : step s = .next t) (hreset : nextTurn s ≠ .reset) :
    (s.overrun = true → t.overrun = true) ∧
      (t.overrun = true → s.overrun = true ∨
        (nextTurn s = .host ∧ s.busy = true ∧ ∃ w off data rest, s.env.script = .wr w off data :: rest)) := by
  rcases step_cases h with ⟨hturn, rfl⟩ | ⟨-, h⟩ | ⟨hturn, -⟩
  · obtain ⟨f, o, a0, a1, kl, k, e, heq, hstays, hcause, -⟩ := hostTurn_keeps (takeTurn s)
    rw [heq]
    exact ⟨hstays, fun hset => (hcause hset).imp_right fun hwrite => ⟨hturn, hwrite⟩⟩
  · rw [engineTurn_overrun h]
    exact ⟨id, .inl⟩
  · exact absurd hturn hreset

theorem step_keeps_fault (h : NoResetStep s t) (hfault : s.fault = true) : t.fault = true := by
  obtain ⟨hstep, hreset⟩ := h
  rcases step_fault_bit hstep hreset with hsame | ⟨hset, -⟩
  · exact hsame.trans hfault
  · exact hset

/-- Settles O35, by what a step can do to each of the two bits. -/
theorem stickyBitsStay : Obligations.StickyBitsStay := by
  intro s t hstep hreset
  obtain ⟨hstays, hcause⟩ := step_overrun hstep hreset
  refine ⟨step_keeps_fault ⟨hstep, hreset⟩, hstays, fun hset => ?_, hcause⟩
  exact (step_fault_bit hstep hreset).imp (fun hsame => hsame.symm.trans hset) And.right

/-- Settles O36, by induction on the steps: each keeps FAULT set, and a final state has FAULT = 0. -/
theorem recordedFaultIsNeverFinal : Obligations.RecordedFaultIsNeverFinal := by
  intro s t hfault hsteps
  have hset : t.fault = true := by
    induction hsteps with
    | refl => exact hfault
    | tail _ hstep ih => exact step_keeps_fault hstep ih
  exact ⟨hset, fun ⟨_, _, hclear⟩ => Bool.false_ne_true (hclear.symm.trans hset)⟩

end Sys2Proof.Machine
end

section
/-! SUPPORT. A command in progress (spec 70): how the host starts it, what the block shows meanwhile, how the Engine's
step ends it, and that it comes to an end. -/

namespace Sys2Proof.Machine

variable {s t : State} {c : Word} {i : Instr} {j : Nat}

/-! ### The write to CMD and the Engine's step -/

/-- Settles O42: the register a 32-bit write at offset 0 names is CMD, which reads 0 in every state. -/
theorem writeToCmdStartsACommand : Obligations.WriteToCmdStartsACommand := by
  intro s c hidle
  have hwrite : hostWrite s .w32 0x000#32 c = { s with inFlight := some c } := hostWrite_offset hidle .cmd c
  rw [hwrite]
  exact ⟨rfl, rfl, hostRead_offset _ .cmd⟩

/-- A 32-bit word is its own row of the opcode table. -/
theorem tableWord_of_toNat (c : Word) : tableWord 32 c.toNat = c := by
  rw [← BitVec.toNat_inj, tableWord_toNat, Nat.mod_eq_of_lt c.isLt]

/-- The turn that `placeCommand` puts first is the one the next step takes off. -/
theorem takeTurn_placeCommand (s : State) (c : Word) :
    takeTurn (placeCommand s c) = { s with inFlight := some c } := rfl

theorem step_of_decode (hturn : nextTurn s = .engine) (hc : s.inFlight = some c) (hdecode : decode c = .ok i) :
    step s = exec i (takeTurn s) := by
  rw [step_of_inFlight hturn hc, runCommand_ok hdecode]

/-- Settles O5: `withFetchWord` puts a word in progress and the Engine first, so its clause is a case of the other. -/
theorem stepRunsTheDecodedCommand : Obligations.StepRunsTheDecodedCommand := by
  refine ⟨fun s c i hc hdecode hturn => step_of_decode hturn hc hdecode, fun s i => ?_⟩
  rw [State.withFetchWord, tableWord_of_toNat, ← takeTurn_placeCommand]
  exact step_of_decode rfl (placeCommand_inFlight s (encode i)) (decode_encode i)

/-! ### A key byte that nothing has written -/

theorem withKey_of_unwritten {effect : List Byte → Host.Outcome State Fault Refusal} (hfits : KeyFits s)
    (hkey : s.keyBytes = .error j) : withKey s effect = .fault (.keyByteUnwritten j) := by
  simp [withKey, keyOverlong_eq_false hfits, hkey]

theorem withFilterAndKey_of_unwritten {effect : List Byte → State} (hready : s.ready = true) (hfits : KeyFits s)
    (hkey : s.keyBytes = .error j) : withFilterAndKey s effect = .fault (.keyByteUnwritten j) := by
  rw [withFilterAndKey, if_pos hready, withKey_of_unwritten hfits hkey]

/-- A command that stops at a key byte is no CONFIG, and its key fits and cannot be read (70 R184). -/
theorem exec_keyByteUnwritten (h : exec i s = .fault (.keyByteUnwritten j)) :
    i ≠ .config ∧ KeyFits s ∧ s.keyBytes = .error j := by
  obtain ⟨hcommand, hfits, ⟨_, ⟨⟩, hkey⟩ | ⟨hfault, -⟩⟩ := exec_fault_cases h
  · refine ⟨?_, hfits, hkey⟩
    rintro rfl
    simp at hcommand
  · cases hfault

/-- Settles O41: the byte of the fault is the first one at which the key operand cannot be read. -/
theorem unwrittenKeyByteIsAFault : Obligations.UnwrittenKeyByteIsAFault := by
  refine fun s j => ⟨fun hfits hlt hnone hfirst => ?stops, fun i h => ?converse⟩
  case stops =>
    have hkey : s.keyBytes = .error j := keyBytes_error_iff.2 ⟨hlt, hnone, hfirst⟩
    exact ⟨withKey_of_unwritten hfits hkey, fun hready =>
      ⟨withFilterAndKey_of_unwritten hready hfits hkey, withFilterAndKey_of_unwritten hready hfits hkey⟩⟩
  case converse =>
    obtain ⟨hi, hfits, hkey⟩ := exec_keyByteUnwritten h
    obtain ⟨hlt, hnone, -⟩ := keyBytes_error_iff.1 hkey
    exact ⟨hi, hfits, hlt, hnone⟩

/-! ### The host's turn while a command is in progress -/

/-- While BUSY = 1 the host's turn changes OVERRUN and its own side alone, and fixes no turn (70 R186). -/
theorem hostTurn_of_busy (hbusy : s.busy = true) :
    ∃ o e, hostTurn s = { s with overrun := o, env := e } ∧ e.schedule = s.env.schedule := by
  rcases hostTurn_eq_cases s with ⟨-, h⟩ | ⟨x, rest, -, h⟩
  · exact ⟨s.overrun, s.env, h, rfl⟩
  · rw [h]
    cases x with
    | wr w off data => exact ⟨true, _, hostWrite_busy (s := withScript s rest) hbusy w off data, rfl⟩
    | rd w off => exact ⟨s.overrun, _, rfl, rfl⟩
    | poll =>
      rw [runStmt_poll, if_pos hbusy]
      exact ⟨s.overrun, _, rfl, rfl⟩

/-- OVERRUN stands in bit 4 of STATUS alone, and the host side in none (10 R22). -/
theorem statusWord_getLsbD_of_ne_four (s : State) (o : Bool) (e : Env) {k : Nat} (hk : k ≠ 4) :
    ({ s with overrun := o, env := e } : State).statusWord.getLsbD k = s.statusWord.getLsbD k := by
  simp only [State.statusWord, BitVec.getLsbD_append]
  by_cases hlow : k < 4
  · interval_cases k <;> rfl
  · have hhigh : ¬ k - 1 - 1 - 1 - 1 < 1 := by omega
    simp only [hhigh, if_false]
    rfl

theorem step_of_hostTurn (hturn : nextTurn s = .host) : step s = .next (hostTurn (takeTurn s)) := by
  rw [step, hturn, runTurn_host]

/-- Settles O43: a turn of the host changes OVERRUN and the host side, which no location shows but bit 4 of STATUS. -/
theorem busyBlockDropsWrites : Obligations.BusyBlockDropsWrites := by
  refine fun s hbusy => ⟨hostWrite_busy hbusy, fun t hturn hstep => ?_⟩
  obtain ⟨o, e, heq, -⟩ := hostTurn_of_busy (s := takeTurn s) hbusy
  rw [step_of_hostTurn hturn, heq] at hstep
  obtain rfl := Host.Outcome.next.inj hstep
  have hstatus : ∀ u : State, hostRead u .w32 0x004#32 = u.statusWord := fun u => hostRead_offset u .status
  refine ⟨hbusy, ⟨o, e, rfl⟩, fun w off hoff => hostRead_congr s o e w off (.inl hoff), fun k hk => ?_, ?_⟩
  · rw [hstatus, hstatus]
    exact statusWord_getLsbD_of_ne_four s o e hk
  · obtain ⟨-, -, -, -, hoverrun, -⟩ := statusWord_flags { s with overrun := o, env := e }
    rw [hstatus]
    exact hoverrun

/-! ### The end of a command -/

/-- `n` steps end the command in progress: BUSY is then 0, or the model has stopped at an unwritten key byte. -/
def EndsAfter (n : Nat) (s : State) : Prop :=
  (∃ t, core.run n s = .next t ∧ t.busy = false) ∨ ∃ j, core.run n s = .fault (.keyByteUnwritten j)

theorem endsAfter_one_of_next (hstep : step s = .next t) (hdone : t.busy = false) : EndsAfter 1 s :=
  .inl ⟨t, (core_run_next hstep).trans (core_run_zero t), hdone⟩

theorem endsAfter_one_of_fault (hstep : step s = .fault (.keyByteUnwritten j)) : EndsAfter 1 s :=
  .inr ⟨j, core_run_fault hstep⟩

theorem endsAfter_succ {n : Nat} (hstep : step s = .next t) (h : EndsAfter n t) : EndsAfter (n + 1) s := by
  rwa [EndsAfter, core_run_next hstep]

theorem runCommand_ne_refused {r : Refusal} : runCommand c s ≠ .refused r := by
  intro h
  cases hdecode : decode c with
  | error e => rw [runCommand_error hdecode] at h; cases h
  | ok i => rw [runCommand_ok hdecode] at h; exact exec_ne_refused h

/-- The Engine's step ends the command: the invariant shuts out the fault of a zero modulus (43 R127). -/
theorem endsAfter_one_of_engine (h : BlockInv s) (hbusy : s.busy = true) (hturn : nextTurn s = .engine) :
    EndsAfter 1 s := by
  obtain ⟨c, hc⟩ := Option.isSome_iff_exists.1 hbusy
  have hstep : step s = runCommand c (takeTurn s) := step_of_inFlight hturn hc
  cases hrun : runCommand c (takeTurn s) with
  | next t =>
    obtain ⟨hdone, -⟩ := errorsHaveNoPartialEffect c (takeTurn s) t hrun
    exact endsAfter_one_of_next (hstep.trans hrun) hdone
  | fault r =>
    cases r with
    | keyByteUnwritten j => exact endsAfter_one_of_fault (hstep.trans hrun)
    | probeModulusZero => exact absurd (hstep.trans hrun) (probeModulusIsNeverZero s h)
  | refused r => exact absurd hrun runCommand_ne_refused

/-- The host moves while BUSY = 1 only where the schedule says so (log 2). -/
theorem schedule_of_busy_host (hbusy : s.busy = true) (hturn : nextTurn s = .host) :
    ∃ rest, s.env.schedule = .host :: rest := by
  unfold nextTurn at hturn
  cases hsched : s.env.schedule with
  | nil => simp [hsched, hbusy] at hturn
  | cons turn rest =>
    rw [hsched] at hturn
    exact ⟨rest, congrArg (· :: rest) hturn⟩

/-- A host's turn while BUSY = 1 leaves BUSY and uses up one turn of the schedule. -/
theorem step_host_of_busy (hbusy : s.busy = true) (hturn : nextTurn s = .host) :
    ∃ t, step s = .next t ∧ t.busy = true ∧ t.env.schedule.length + 1 = s.env.schedule.length := by
  obtain ⟨rest, hsched⟩ := schedule_of_busy_host hbusy hturn
  obtain ⟨o, e, heq, hrest⟩ := hostTurn_of_busy (s := takeTurn s) hbusy
  refine ⟨_, step_of_hostTurn hturn, ?_⟩
  rw [heq]
  exact ⟨hbusy, by simp [hrest, hsched]⟩

/-- Everything a step can do while BUSY = 1: it ends the command, or it uses up one turn of the schedule. -/
theorem step_of_busy (h : BlockInv s) (hbusy : s.busy = true) :
    EndsAfter 1 s ∨
      ∃ t, step s = .next t ∧ t.busy = true ∧ t.env.schedule.length + 1 = s.env.schedule.length := by
  cases hturn : nextTurn s with
  | host => exact .inr (step_host_of_busy hbusy hturn)
  | engine => exact .inl (endsAfter_one_of_engine h hbusy hturn)
  | reset =>
    have hstep : step s = .next (resetBlock (takeTurn s)) := by rw [step, hturn, runTurn_reset]
    exact .inl (endsAfter_one_of_next hstep (resetBlock_busy _))

/-- By recursion along the run: a step that does not end the command shortens the schedule. -/
theorem exists_endsAfter {s : State} (h : BlockInv s) (hbusy : s.busy = true) :
    ∃ n ≤ s.env.schedule.length + 1, EndsAfter n s := by
  rcases step_of_busy h hbusy with hends | ⟨t, hstep, hbusy', hshorter⟩
  · exact ⟨1, by omega, hends⟩
  · obtain ⟨n, hn, hends⟩ := exists_endsAfter (blockInv_step h hstep) hbusy'
    exact ⟨n + 1, by omega, endsAfter_succ hstep hends⟩
termination_by s.env.schedule.length

/-- Settles O40: the bound is the length of the schedule, and the default turn of the Engine after it. -/
theorem commandsCompleteInBoundedSteps : Obligations.CommandsCompleteInBoundedSteps :=
  fun _ => exists_endsAfter

end Sys2Proof.Machine
end
